-- ==== Sys2Proof/Word.lean ====
section
/-! DEFINITION. The two kinds of value the block computes with: bytes and base-85 digits. -/

namespace Sys2Proof

/-- A byte, 8 bits, 0 to 255: the addressable unit of both buffers, a raw byte or a character
(20_memory.md R20). -/
abbrev Byte := BitVec 8

/-- A base-85 digit, an integer 0 to 84 (00_scope.md section 6, 90_conflicts.md C1). -/
abbrev Digit := Fin 85

end Sys2Proof
end

