-- ==== Sys2Proof/Config.lean ====
section
/-! DEFINITION. What an implementation fixes (00_scope.md section 4) and the values the spec leaves free. -/

namespace Sys2Proof

/-- The parameters of one instance with the constraints of 00_scope.md section 4 (D2).
A State holds the parameters of its instance and no step changes them, so a claim about every state
quantifies over them (DESIGN CHOICE, notes/assumptions/1.md). -/
structure Config.Params where
  /-- `IN_SIZE`, the number of bytes of the input buffer. -/
  inSize : Nat
  /-- `OUT_SIZE`, the number of bytes of the output buffer. -/
  outSize : Nat
  /-- `LEN_W`, the width in bits of ILEN, OCAP and COUNT. -/
  lenW : Nat
  inSize_ge : 5 ≤ inSize
  outSize_ge : 5 ≤ outSize
  lenW_fits : max inSize outSize < 2 ^ lenW
deriving DecidableEq, Repr

/-- The reference instance of 00_scope.md section 4 and 95_test_vectors.md. -/
def Config.Params.reference : Config.Params where
  inSize := 256
  outSize := 256
  lenW := 16
  inSize_ge := by decide
  outSize_ge := by decide
  lenW_fits := by decide

/-- Free value: byte `i` of IN of instance `u` after its reset number `n` (10_state.md R17, U8: any byte
value, not necessarily the same after two resets). DESIGN CHOICE of its form, notes/assumptions/2.md;
that two instances draw apart exactly when their numbers `u` differ, notes/assumptions/23.md. -/
opaque Config.inAfterReset : (u n i : Nat) → Byte

/-- Free value: byte `i` of OUT of instance `u` after its reset number `n` (10_state.md R17, U8).
DESIGN CHOICE of its form, notes/assumptions/2.md and, for the instance, 23.md. -/
opaque Config.outAfterReset : (u n i : Nat) → Byte

/-- Free value: LATCH of instance `u` after its reset number `n` (10_state.md R17, U8).
DESIGN CHOICE of its form, notes/assumptions/3.md and, for the instance, 23.md. -/
opaque Config.latchAfterReset : (u n : Nat) → Byte

/-- Free value: what the `k`-th read of OUT under BUSY of instance `u` returns (20_memory.md R28, U7: any
value per read, two reads may differ). DESIGN CHOICE of its form, notes/assumptions/4.md and, for the
instance, 23.md. -/
opaque Config.outWhileBusy : (u k : Nat) → Byte

end Sys2Proof
end

