-- ==== Sys2Proof/Syntax.lean ====
section
/-! DEFINITION. The syntax: the twelve commands, the fields of a command word, the host's actions, the
events of a schedule and the lines of a host program. -/

namespace Sys2Proof

/-- The twelve commands, one constructor per row of spec/opcode_table.json (30_encoding.md R38).
No command carries an operand: all data operands are implicit (R40). -/
inductive Instr where
  /-- `TOCHAR`, 40_alphabet.md R48. -/
  | tochar
  /-- `TODIGIT`, 40_alphabet.md R49. -/
  | todigit
  /-- `ENC1`, 41_encode_group.md R56. -/
  | enc1
  /-- `ENC2`, 41_encode_group.md R55. -/
  | enc2
  /-- `ENC3`, 41_encode_group.md R54. -/
  | enc3
  /-- `ENC4`, 41_encode_group.md R53. -/
  | enc4
  /-- `DEC2`, 42_decode_group.md R65. -/
  | dec2
  /-- `DEC3`, 42_decode_group.md R64. -/
  | dec3
  /-- `DEC4`, 42_decode_group.md R63. -/
  | dec4
  /-- `DEC5`, 42_decode_group.md R62. -/
  | dec5
  /-- `ENCODE`, 43_buffer_ops.md R69 to R71. -/
  | encode
  /-- `DECODE`, 43_buffer_ops.md R72 to R74. -/
  | decode
deriving DecidableEq, Repr

/-- The fields of a command word, format `CMD8` (30_encoding.md R37). -/
structure Cmd8 where
  /-- Bits 7:6, must be 0. -/
  rsvd : BitVec 2
  /-- Bits 5:3, the function selector. -/
  fn : BitVec 3
  /-- Bits 2:0, the group size. -/
  n : BitVec 3
deriving DecidableEq, Repr

/-- The host's seven actions (20_memory.md R28), with the numbers the host gives: whether the block
has what they name is `HostAction.admitted`. -/
inductive HostAction where
  /-- `HWriteReg(r, v)`. -/
  | writeReg (r v : Nat)
  /-- `HReadReg(r)`. -/
  | readReg (r : Nat)
  /-- `HWriteIn(i, b)`. -/
  | writeIn (i b : Nat)
  /-- `HReadIn(i)`. -/
  | readIn (i : Nat)
  /-- `HWriteOut(i, b)`. -/
  | writeOut (i b : Nat)
  /-- `HReadOut(i)`. -/
  | readOut (i : Nat)
  /-- `HReset`. -/
  | reset
deriving DecidableEq, Repr

/-- One event of a schedule: an action of the host, or a turn of the core, in which a command in
progress completes (70_reset_and_hazards.md R97). Notes/assumptions/5.md. -/
inductive Event where
  | host (a : HostAction)
  | core
deriving DecidableEq, Repr

/-- What one read returned to the host (20_memory.md R28). -/
inductive Returned where
  /-- `HReadReg(r)` returned `v`. -/
  | reg (r v : Nat)
  /-- `HReadIn(i)` returned `b`. -/
  | inByte (i : Nat) (b : Byte)
  /-- `HReadOut(i)` returned `b`. -/
  | outByte (i : Nat) (b : Byte)
deriving DecidableEq, Repr

/-- The lines of a host program and its pseudo-instructions (30_encoding.md R42). A text is given by
its characters. -/
inductive HostLine where
  /-- `WRIN i, b0 b1 ... bk`. -/
  | wrin (i : Nat) (bytes : List Nat)
  /-- `WRIN i, "text"`. -/
  | wrinText (i : Nat) (text : List Char)
  /-- `WROUT i, b0 b1 ... bk`. -/
  | wrout (i : Nat) (bytes : List Nat)
  /-- `WR ILEN, v`. -/
  | wrIlen (v : Nat)
  /-- `WR OCAP, v`. -/
  | wrOcap (v : Nat)
  /-- `CMD <mnemonic>`. -/
  | cmd (i : Instr)
  /-- `CMD 0xNN`. -/
  | cmdWord (w : Nat)
  /-- `RD STATUS`. -/
  | rdStatus
  /-- `RD COUNT`. -/
  | rdCount
  /-- `RD ILEN`. -/
  | rdIlen
  /-- `RD OCAP`. -/
  | rdOcap
  /-- `RD CMD`. -/
  | rdCmd
  /-- `RDOUT i, k`. -/
  | rdout (i k : Nat)
  /-- `RDIN i, k`. -/
  | rdin (i k : Nat)
  /-- `RESET`. -/
  | reset
  /-- No line of R42: the place where a command in progress completes, which 95_test_vectors.md P5 writes
  as a comment (notes/assumptions/24.md). -/
  | completes
  /-- The pseudo-instruction `WAIT` when `k` of its polls come before the completion. -/
  | wait (k : Nat)
  /-- The pseudo-instruction `ENCODE_CALL "text", cap`, its `WAIT` with `k` busy polls. -/
  | encodeCall (text : List Char) (cap k : Nat)
  /-- The pseudo-instruction `DECODE_CALL "text", cap`, its `WAIT` with `k` busy polls. -/
  | decodeCall (text : List Char) (cap k : Nat)
deriving DecidableEq, Repr

end Sys2Proof
end

