-- ==== Sys2Proof/WellFormed.lean ====
section
/-! DEFINITION. Which command words' fields name a command (30_encoding.md R37 to R39) and which host
actions name something the block has (20_memory.md R28). -/

namespace Sys2Proof

/-- Bits 7:6 must be 0 (30_encoding.md R37). -/
def Cmd8.reservedClear (c : Cmd8) : Bool := c.rsvd == 0

/-- `fn` 0 and 7 name no function (30_encoding.md R39). -/
def Cmd8.fnDefined (c : Cmd8) : Bool := c.fn != 0 && c.fn != 7

/-- `n` is 1 to 4 for `ENC` (`fn` 3), 2 to 5 for `DEC` (`fn` 4), 0 otherwise (30_encoding.md R37, R39). -/
def Cmd8.sizeFits (c : Cmd8) : Bool :=
  if c.fn = 3 then decide (1 ≤ c.n.toNat ∧ c.n.toNat ≤ 4)
  else if c.fn = 4 then decide (2 ≤ c.n.toNat ∧ c.n.toNat ≤ 5)
  else c.n == 0

/-- The fields of a command word name one of the twelve commands (30_encoding.md R38, R39). -/
def Cmd8.wellFormed (c : Cmd8) : Bool := c.reservedClear && c.fnDefined && c.sizeFits

/-- The fields of each command (30_encoding.md R38, columns `fn` and `n`). -/
def Instr.fields : Instr → Cmd8
  | .tochar  => ⟨0, 1, 0⟩
  | .todigit => ⟨0, 2, 0⟩
  | .enc1    => ⟨0, 3, 1⟩
  | .enc2    => ⟨0, 3, 2⟩
  | .enc3    => ⟨0, 3, 3⟩
  | .enc4    => ⟨0, 3, 4⟩
  | .dec2    => ⟨0, 4, 2⟩
  | .dec3    => ⟨0, 4, 3⟩
  | .dec4    => ⟨0, 4, 4⟩
  | .dec5    => ⟨0, 4, 5⟩
  | .encode  => ⟨0, 5, 0⟩
  | .decode  => ⟨0, 6, 0⟩

/-- A command is well formed when its fields are; no command has an operand that could be ill formed
(30_encoding.md R40), so every command is. -/
def Instr.wellFormed (i : Instr) : Bool := i.fields.wellFormed

/-- The column "Admitted when" of 20_memory.md R28. -/
def HostAction.admitted (p : Config.Params) : HostAction → Bool
  | .writeReg 0 w => decide (w ≤ 255)
  | .writeReg 1 _ => true
  | .writeReg 2 v => decide (v < 2 ^ p.lenW)
  | .writeReg 3 v => decide (v < 2 ^ p.lenW)
  | .writeReg 4 _ => true
  | .writeReg _ _ => false
  | .readReg r    => decide (r ≤ 4)
  | .writeIn i b  => decide (i < p.inSize ∧ b ≤ 255)
  | .readIn i     => decide (i < p.inSize)
  | .writeOut i b => decide (i < p.outSize ∧ b ≤ 255)
  | .readOut i    => decide (i < p.outSize)
  | .reset        => true

/-- Every host action of a schedule is admitted; the core's turns always are. -/
def Event.admitted (p : Config.Params) : Event → Bool
  | .host a => a.admitted p
  | .core   => true

end Sys2Proof
end

