-- ==== Sys2Proof/Decode.lean ====
section
/-! DEFINITION. Decoding a command word, total and rejecting by name, and encoding a command. -/

namespace Sys2Proof

/-- Why a word, or a byte string, holds no command (30_encoding.md R39). The block reports every one
of them as `Illegal`; the names are the model's (DESIGN CHOICE, notes/assumptions/17.md). -/
inductive Reject where
  /-- There is no byte to decode. -/
  | noByte
  /-- Bit 7 or bit 6 is set. -/
  | reservedBitSet
  /-- `fn` is 0 or 7. -/
  | noSuchFunction
  /-- `n` is not a size of the function. -/
  | noSuchSize
deriving DecidableEq, Repr

/-- The fields of a word: `rsvd` bits 7:6, `fn` bits 5:3, `n` bits 2:0 (30_encoding.md R37). -/
def Cmd8.ofWord (w : Byte) : Cmd8 :=
  ⟨w.extractLsb' 6 2, w.extractLsb' 3 3, w.extractLsb' 0 3⟩

/-- The command the fields name, or why they name none (30_encoding.md R38, R39). -/
def Cmd8.instr (c : Cmd8) : Except Reject Instr :=
  if c.rsvd ≠ 0 then .error .reservedBitSet
  else match c.fn.toNat, c.n.toNat with
    | 1, 0 => .ok .tochar
    | 2, 0 => .ok .todigit
    | 3, 1 => .ok .enc1
    | 3, 2 => .ok .enc2
    | 3, 3 => .ok .enc3
    | 3, 4 => .ok .enc4
    | 4, 2 => .ok .dec2
    | 4, 3 => .ok .dec3
    | 4, 4 => .ok .dec4
    | 4, 5 => .ok .dec5
    | 5, 0 => .ok .encode
    | 6, 0 => .ok .decode
    | 0, _ => .error .noSuchFunction
    | 7, _ => .error .noSuchFunction
    | _, _ => .error .noSuchSize

/-- The command a word names; the whole byte is matched (30_encoding.md R38). -/
def decodeWord (w : Byte) : Except Reject Instr := (Cmd8.ofWord w).instr

/-- Decoding a byte string: one command is one byte (30_encoding.md R41); the rest is given back. -/
def decode : List Byte → Except Reject (Instr × List Byte)
  | [] => .error .noByte
  | w :: rest =>
    match decodeWord w with
    | .ok i => .ok (i, rest)
    | .error r => .error r

/-- The word of each command (30_encoding.md R38, column "Word"). -/
def encode : Instr → Byte
  | .tochar  => 0x08
  | .todigit => 0x10
  | .enc1    => 0x19
  | .enc2    => 0x1A
  | .enc3    => 0x1B
  | .enc4    => 0x1C
  | .dec2    => 0x22
  | .dec3    => 0x23
  | .dec4    => 0x24
  | .dec5    => 0x25
  | .encode  => 0x28
  | .decode  => 0x30

/-- The instruction read from a word numbered as spec/opcode_table.json numbers it: the only word is
the low byte, and the bits from `nbits` up are 0. -/
def decodeTableWord (nbits w : Nat) : Option Instr :=
  match decode [BitVec.ofNat 8 (w % 2 ^ nbits)] with
  | .ok (i, _) => some i
  | .error _ => none

end Sys2Proof
end

