-- ==== Sys2Proof/Machine/Codec.lean ====
section
/-! DEFINITION. The constant functions of the codec: the alphabet, the value of a group, the groups, the
lengths. They hold no state (10_state.md R18). -/

namespace Sys2Proof.Machine

/-- Whether a byte is one of the 85 characters (40_alphabet.md R43, 30_encoding.md R34). -/
def isValid (c : Byte) : Bool :=
  decide (0x28 ≤ c.toNat ∧ c.toNat ≤ 0x5B ∨ 0x5D ≤ c.toNat ∧ c.toNat ≤ 0x7D)

/-- The character of a digit; the comparison is made once, on the sum (40_alphabet.md R44). -/
def toChar (d : Digit) : Byte :=
  let c := 0x28 + d.val
  BitVec.ofNat 8 (if c ≥ 0x5C then c + 1 else c)

/-- The digit of a valid character, and no value for any other byte (40_alphabet.md R45, R47). -/
def toDigit? (c : Byte) : Option Digit :=
  if h : isValid c = true then
    let d := c.toNat - 0x28
    some ⟨if c.toNat ≥ 0x5C then d - 1 else d, by
      have h' := of_decide_eq_true h
      simp only [d]
      split <;> omega⟩
  else none

/-- A number as a digit, where it is one: `to_char` has no value above 84 (40_alphabet.md R44, U5). -/
def digit? (n : Nat) : Option Digit :=
  if h : n < 85 then some ⟨n, h⟩ else none

/-- The character of a number, where the number is a digit. -/
def charOf? (n : Nat) : Option Byte := (digit? n).map toChar

/-- The digits of a list of characters, and none as soon as one character is invalid: validation
precedes digit look-up (42_decode_group.md R61). -/
def digits? : List Byte → Option (List Digit)
  | [] => some []
  | c :: cs =>
    match toDigit? c, digits? cs with
    | some d, some ds => some (d :: ds)
    | _, _ => none

/-- `le_value`: the unsigned little-endian value of a byte list (41_encode_group.md R50). -/
def leValue : List Byte → Nat
  | [] => 0
  | b :: bs => b.toNat + 256 * leValue bs

/-- `k` characters of `v`, least significant digit first, by repeated division (41_encode_group.md R51). -/
def encDigits : Nat → Nat → List Byte
  | 0, _ => []
  | k + 1, v => toChar ⟨v % 85, Nat.mod_lt v (by decide)⟩ :: encDigits k (v / 85)

/-- `enc_group`: n bytes to n + 1 characters (41_encode_group.md R51). -/
def encGroup (bytes : List Byte) : List Byte := encDigits (bytes.length + 1) (leValue bytes)

/-- `dec_value`: the exact base-85 value of a digit list, least significant first (42_decode_group.md R58). -/
def decValue : List Digit → Nat
  | [] => 0
  | d :: ds => d.val + 85 * decValue ds

/-- The `k` low bytes of `v`, least significant first; what lies above is dropped
(42_decode_group.md R59, R60). -/
def lowBytes (k v : Nat) : List Byte :=
  (List.range k).map fun j => BitVec.ofNat 8 (v / 256 ^ j % 256)

/-- `dec_group` on the digits of m valid characters: m - 1 bytes (42_decode_group.md R59). -/
def decGroup (ds : List Digit) : List Byte := lowBytes (ds.length - 1) (decValue ds)

/-- `enc_len`, on unbounded numbers (43_buffer_ops.md R67, R80). -/
def encLen (l : Nat) : Nat := l * 5 / 4 + (if l % 4 ≠ 0 then 1 else 0)

/-- `dec_len`, on unbounded numbers (43_buffer_ops.md R68, R80). -/
def decLen (m : Nat) : Nat := m * 4 / 5

end Sys2Proof.Machine
end

