-- ==== Sys2Proof/Machine/State.lean ====
section
/-! DEFINITION. The state of one instance (10_state.md R5) as plain data, its reset, and the ways a step can stop. -/

namespace Sys2Proof.Machine

/-- The contents of a buffer: the bytes written since the last reset, by address.
Canonical form: `Memory.wf` in Machine/Ops.lean, notes/assumptions/2.md. -/
abbrev Memory := List Host.Cell

/-- The outcomes a command can report in STATUS.ERR: five, and no others (10_state.md R7, U9,
60_exceptions.md R82). -/
inductive Err where
  /-- Code 0. -/
  | ok
  /-- Code 1: OCAP is below the output length. -/
  | outputTooShort
  /-- Code 2: the input length is 1 mod 5. -/
  | invalidLength
  /-- Code 3: a character read is outside the alphabet. -/
  | invalidChar
  /-- Code 4: the request names something the block does not have. -/
  | illegal
deriving DecidableEq, Repr

/-- The block never stops on a fault: every command completes (60_exceptions.md R90: a model has no
fault state), so there is no reason to name and nobody raises one. -/
inductive Fault
deriving DecidableEq, Repr

/-- Why a step is refused. -/
inductive Refusal where
  /-- An arm of `exec` that has no meaning yet, by its mnemonic. Raised by no arm of this model. Safe. -/
  | notModelled (mnemonic : String)
  /-- A host action outside the column "Admitted when" of 20_memory.md R28, which the spec gives no
  step (R28, D23, U10). Raised by `hostAct`, by no command. Safe: nothing can be proved of what follows. -/
  | hostActionNotAdmitted (a : HostAction)
deriving DecidableEq, Repr

/-- One instance with the host that drives it. The fields from `inBuf` to `latch` are the spec's
state (10_state.md R5); CMD and STATUS[6:3] hold nothing (R6, R7). -/
structure State where
  /-- The instance's parameters (00_scope.md section 4), notes/assumptions/1.md. -/
  params : Config.Params
  /-- `IN`, 10_state.md R11. -/
  inBuf : Memory
  /-- `OUT`, 10_state.md R12. -/
  outBuf : Memory
  /-- `ILEN`, 10_state.md R8, an unsigned value below 2^LEN_W (notes/assumptions/8.md). -/
  ilen : Nat
  /-- `OCAP`, 10_state.md R9, as ILEN. -/
  ocap : Nat
  /-- `COUNT`, 10_state.md R10, as ILEN. -/
  count : Nat
  /-- `STATUS.ERR`, 10_state.md R7. -/
  err : Err
  /-- `STATUS.BUSY`, 10_state.md R7. -/
  busy : Bool
  /-- `LATCH`, 10_state.md R5, R6: meaningful while `busy`. -/
  latch : Byte
  /-- The model's own: the number of this instance, the index under which its free values are drawn; no
  step changes it (20_memory.md R31, notes/assumptions/23.md). -/
  unit : Nat
  /-- The model's own: resets taken so far, the index of the values a reset leaves free
  (notes/assumptions/2.md). -/
  resets : Nat
  /-- The model's own: reads of OUT answered under BUSY so far, the index of the next such read's
  free value (notes/assumptions/4.md). -/
  draws : Nat
  /-- The model's own: what is still to happen, next first (notes/assumptions/5.md). -/
  schedule : List Event
  /-- The model's own: what the host's reads returned, oldest first (notes/assumptions/7.md). -/
  returned : List Returned
deriving DecidableEq, Repr

/-- The state of instance `u` after its reset number `n` (10_state.md R17, 70_reset_and_hazards.md R92):
no byte of IN or OUT is listed, so each reads as the free value drawn at that reset. -/
def State.afterReset (p : Config.Params) (u n : Nat) : State where
  params := p
  inBuf := []
  outBuf := []
  ilen := 0
  ocap := 0
  count := 0
  err := .ok
  busy := false
  latch := Config.latchAfterReset u n
  unit := u
  resets := n
  draws := 0
  schedule := []
  returned := []

/-- The reference instance, numbered 0, right after reset, its host silent
(notes/assumptions/1.md, 6.md, 23.md). -/
def State.reset : State := State.afterReset Config.Params.reference 0 0

end Sys2Proof.Machine
end

