-- ==== Sys2Proof/Machine/Ops.lean ====
section
/-! DEFINITION. The named operations over buffers and registers: reading and writing a byte, `MemRead`,
`MemWrite`, issuing a command, completing one, `raise`, reset. -/

namespace Sys2Proof.Machine

/-- The byte a memory lists at an address, if it lists one. -/
def Memory.get? : List Host.Cell → Nat → Option Byte
  | [], _ => none
  | (a, b) :: m, x => if x = a then some b else Memory.get? m x

/-- Listing a byte at an address, addresses kept rising. -/
def Memory.set : List Host.Cell → Nat → Byte → List Host.Cell
  | [], x, v => [(x, v)]
  | (a, b) :: m, x, v =>
    if x < a then (x, v) :: (a, b) :: m
    else if x = a then (x, v) :: m
    else (a, b) :: Memory.set m x v

/-- The addresses rise strictly, the first above every address of `below`. -/
def Memory.risingFrom : Option Nat → List Host.Cell → Bool
  | _, [] => true
  | none, (a, _) :: m => Memory.risingFrom (some a) m
  | some l, (a, _) :: m => decide (l < a) && Memory.risingFrom (some a) m

/-- The canonical form of a buffer of `size` bytes: addresses strictly rising, each below `size`.
An address that is not listed holds no byte written since reset, so no entry can equal what an
unlisted address holds (notes/assumptions/2.md). -/
def Memory.wf (size : Nat) (m : List Host.Cell) : Bool :=
  Memory.risingFrom none m && m.all fun c => decide (c.1 < size)

/-- Byte `i` of IN: the byte written there since the last reset, or else the free value that reset
drew (10_state.md R11, R17). -/
def readIn (s : State) (i : Nat) : Byte :=
  (Memory.get? s.inBuf i).getD (Config.inAfterReset s.unit s.resets i)

/-- Byte `i` of OUT, likewise (10_state.md R12, R17). -/
def readOut (s : State) (i : Nat) : Byte :=
  (Memory.get? s.outBuf i).getD (Config.outAfterReset s.unit s.resets i)

/-- `IN[i] <- b`: the host's write; no command uses it (10_state.md R11). -/
def writeIn (s : State) (i : Nat) (b : Byte) : State :=
  { s with inBuf := Memory.set s.inBuf i b }

/-- `OUT[i] <- b` (10_state.md R12). -/
def writeOut (s : State) (i : Nat) (b : Byte) : State :=
  { s with outBuf := Memory.set s.outBuf i b }

/-- `MemRead(IN, a, n)`, the bytes `IN[a]` to `IN[a+n-1]` (20_memory.md R23). -/
def memReadIn (s : State) (a n : Nat) : List Byte :=
  (List.range n).map fun j => readIn s (a + j)

/-- `MemWrite(OUT, a, len(bytes), bytes)` (20_memory.md R23). -/
def memWriteOut : State → Nat → List Byte → State
  | s, _, [] => s
  | s, a, b :: bs => memWriteOut (writeOut s a b) (a + 1) bs

/-- Issue of the word `w` (10_state.md R6): LATCH <- w, BUSY <- 1, ERR <- 0, COUNT <- 0. It is also
what leaves an error behind: there is no return (60_exceptions.md R87). -/
def issue (w : Byte) (s : State) : State :=
  { s with latch := w, busy := true, err := .ok, count := 0 }

/-- Completion with success and `n` bytes written: ERR <- OK, COUNT <- n, BUSY <- 0
(10_state.md R10, 70_reset_and_hazards.md R97). -/
def succeed (n : Nat) (s : State) : State :=
  { s with err := .ok, count := n, busy := false }

/-- `raise E`: no byte of OUT written, ERR <- code(E), COUNT <- 0, BUSY <- 0 (60_exceptions.md R83). -/
def raise (e : Err) (s : State) : State :=
  { s with err := e, count := 0, busy := false }

/-- Writing a command's result from `OUT[0]` on and completing (10_state.md R13, 30_encoding.md R40). -/
def deliver (bytes : List Byte) (s : State) : State :=
  succeed bytes.length (memWriteOut s 0 bytes)

/-- `HReset`, idle or busy (70_reset_and_hazards.md R92, R93): the next reset's state of the same
instance; what the host has still to do and what it has read stay (notes/assumptions/14.md). -/
def hostReset (s : State) : State :=
  { State.afterReset s.params s.unit (s.resets + 1) with
    draws := s.draws, schedule := s.schedule, returned := s.returned }

/-- A read's answer to the host (20_memory.md R28). -/
def answer (r : Returned) (s : State) : State :=
  { s with returned := s.returned ++ [r] }

end Sys2Proof.Machine
end

