-- ==== Sys2Proof/Machine/Operands.lean ====
section
/-! DEFINITION. The operand forms: every operand is implicit and starts at IN[0] (30_encoding.md R40). -/

namespace Sys2Proof.Machine

/-- The digit operand of TOCHAR, the byte `IN[0]` as a number. -/
def digitOperand (s : State) : Nat := (readIn s 0).toNat

/-- The character operand of TODIGIT, `IN[0]`. -/
def charOperand (s : State) : Byte := readIn s 0

/-- The operand of a group command of size `n`, `IN[0 .. n-1]`; ILEN and OCAP are ignored. -/
def groupOperand (n : Nat) (s : State) : List Byte := memReadIn s 0 n

/-- The operand of ENCODE and DECODE, `IN[0 .. ILEN-1]`. -/
def bufferOperand (s : State) : List Byte := memReadIn s 0 s.ilen

end Sys2Proof.Machine
end

