-- ==== Sys2Proof/Machine/Alphabet.lean ====
section
/-! DEFINITION. The alphabet commands TOCHAR and TODIGIT (40_alphabet.md). -/

namespace Sys2Proof.Machine

/-- TOCHAR: `Illegal` above 84, else the character of the digit (40_alphabet.md R48). -/
def execTochar (s : State) : Host.Outcome State Fault Refusal :=
  .next (match charOf? (digitOperand s) with
    | none => raise .illegal s
    | some c => deliver [c] s)

/-- TODIGIT: `InvalidChar` outside the alphabet, else the digit of the character (40_alphabet.md R49). -/
def execTodigit (s : State) : Host.Outcome State Fault Refusal :=
  .next (match toDigit? (charOperand s) with
    | none => raise .invalidChar s
    | some d => deliver [BitVec.ofNat 8 d.val] s)

end Sys2Proof.Machine
end

