-- ==== Sys2Proof/Machine/Buffer.lean ====
section
/-! DEFINITION. The whole-buffer commands ENCODE and DECODE: checks, walk over the groups, effects
(43_buffer_ops.md). -/

namespace Sys2Proof.Machine

/-- The wrapper's check: a length the buffers do not have (43_buffer_ops.md R69, R72). -/
def beyondBuffers (s : State) : Bool :=
  decide (s.ilen > s.params.inSize ∨ s.ocap > s.params.outSize)

/-- ENCODE's checks in their order: the error they raise, or none (43_buffer_ops.md R69). -/
def encodeChecks (s : State) : Option Err :=
  if beyondBuffers s then some .illegal
  else if s.ocap < encLen s.ilen then some .outputTooShort
  else none

/-- ENCODE's walk with `q` full groups to go from offsets `ip` and `op` and then a remainder of `r`
bytes (43_buffer_ops.md R70, 10_state.md R14). -/
def encodeWalk (r : Nat) : (q ip op : Nat) → State → State
  | 0, ip, op, s => if r ≠ 0 then memWriteOut s op (encGroup (memReadIn s ip r)) else s
  | q + 1, ip, op, s =>
    encodeWalk r q (ip + 4) (op + 5) (memWriteOut s op (encGroup (memReadIn s ip 4)))

/-- ENCODE: the checks, then the walk, COUNT <- enc_len(ILEN) (43_buffer_ops.md R69 to R71). -/
def execEncode (s : State) : Host.Outcome State Fault Refusal :=
  .next (match encodeChecks s with
    | some e => raise e s
    | none => succeed (encLen s.ilen) (encodeWalk (s.ilen % 4) (s.ilen / 4) 0 0 s))

/-- DECODE's checks in their order: the error they raise, or the digits of the whole input, which
the scan has validated (43_buffer_ops.md R72). -/
def decodeChecks (s : State) : Except Err (List Digit) :=
  if beyondBuffers s then .error .illegal
  else if s.ilen % 5 = 1 then .error .invalidLength
  else if s.ocap < decLen s.ilen then .error .outputTooShort
  else match digits? (bufferOperand s) with
    | none => .error .invalidChar
    | some ds => .ok ds

/-- DECODE's walk over the digits of its validated input, with `q` full groups to go from offsets
`ip` and `op` and then a remainder of `r` characters (43_buffer_ops.md R73, 10_state.md R14). -/
def decodeWalk (ds : List Digit) (r : Nat) : (q ip op : Nat) → State → State
  | 0, ip, op, s => if r ≠ 0 then memWriteOut s op (decGroup ((ds.drop ip).take r)) else s
  | q + 1, ip, op, s =>
    decodeWalk ds r q (ip + 5) (op + 4) (memWriteOut s op (decGroup ((ds.drop ip).take 5)))

/-- DECODE: the checks, then the walk, COUNT <- dec_len(ILEN) (43_buffer_ops.md R72 to R74). -/
def execDecode (s : State) : Host.Outcome State Fault Refusal :=
  .next (match decodeChecks s with
    | .error e => raise e s
    | .ok ds => succeed (decLen s.ilen) (decodeWalk ds (s.ilen % 5) (s.ilen / 5) 0 0 s))

end Sys2Proof.Machine
end

