-- ==== Sys2Proof/Machine/DecodeGroup.lean ====
section
/-! DEFINITION. The group decoders DEC2 to DEC5 (42_decode_group.md). -/

namespace Sys2Proof.Machine

/-- All `m` characters are validated first; then `MemWrite(OUT, 0, m - 1, dec_group(C))`,
COUNT <- m - 1, ERR <- OK (42_decode_group.md R61 to R65). -/
def decodeGroup (m : Nat) (s : State) : State :=
  match digits? (groupOperand m s) with
  | none => raise .invalidChar s
  | some ds => deliver (decGroup ds) s

/-- DEC2, 42_decode_group.md R65. -/
def execDec2 (s : State) : Host.Outcome State Fault Refusal := .next (decodeGroup 2 s)

/-- DEC3, 42_decode_group.md R64. -/
def execDec3 (s : State) : Host.Outcome State Fault Refusal := .next (decodeGroup 3 s)

/-- DEC4, 42_decode_group.md R63. -/
def execDec4 (s : State) : Host.Outcome State Fault Refusal := .next (decodeGroup 4 s)

/-- DEC5, 42_decode_group.md R62. -/
def execDec5 (s : State) : Host.Outcome State Fault Refusal := .next (decodeGroup 5 s)

end Sys2Proof.Machine
end

