-- ==== Sys2Proof/Machine/EncodeGroup.lean ====
section
/-! DEFINITION. The group encoders ENC1 to ENC4 (41_encode_group.md). -/

namespace Sys2Proof.Machine

/-- `MemWrite(OUT, 0, n + 1, enc_group(MemRead(IN, 0, n)))`, COUNT <- n + 1, ERR <- OK
(41_encode_group.md R53 to R56). -/
def encodeGroup (n : Nat) (s : State) : State := deliver (encGroup (groupOperand n s)) s

/-- ENC1, 41_encode_group.md R56. -/
def execEnc1 (s : State) : Host.Outcome State Fault Refusal := .next (encodeGroup 1 s)

/-- ENC2, 41_encode_group.md R55. -/
def execEnc2 (s : State) : Host.Outcome State Fault Refusal := .next (encodeGroup 2 s)

/-- ENC3, 41_encode_group.md R54. -/
def execEnc3 (s : State) : Host.Outcome State Fault Refusal := .next (encodeGroup 3 s)

/-- ENC4, 41_encode_group.md R53. -/
def execEnc4 (s : State) : Host.Outcome State Fault Refusal := .next (encodeGroup 4 s)

end Sys2Proof.Machine
end

