-- ==== Sys2Proof/Machine/Dispatch.lean ====
section
/-! DEFINITION. The meaning of each command: the whole effect its completion applies
(70_reset_and_hazards.md R97). -/

namespace Sys2Proof.Machine

def exec (i : Instr) (s : State) : Host.Outcome State Fault Refusal :=
  match i with
  | .tochar => Sys2Proof.Machine.execTochar s
  | .todigit => Sys2Proof.Machine.execTodigit s
  | .enc1 => Sys2Proof.Machine.execEnc1 s
  | .enc2 => Sys2Proof.Machine.execEnc2 s
  | .enc3 => Sys2Proof.Machine.execEnc3 s
  | .enc4 => Sys2Proof.Machine.execEnc4 s
  | .dec2 => Sys2Proof.Machine.execDec2 s
  | .dec3 => Sys2Proof.Machine.execDec3 s
  | .dec4 => Sys2Proof.Machine.execDec4 s
  | .dec5 => Sys2Proof.Machine.execDec5 s
  | .encode => Sys2Proof.Machine.execEncode s
  | .decode => Sys2Proof.Machine.execDecode s

end Sys2Proof.Machine
end

