-- ==== Sys2Proof/Machine/Flags.lean ====
section
/-! DEFINITION. The STATUS register: the code of an outcome and the word a read returns (10_state.md R7). -/

namespace Sys2Proof.Machine

/-- The numeric code of an outcome (10_state.md R7, 60_exceptions.md R82). -/
def errCode : Err → BitVec 3
  | .ok             => 0
  | .outputTooShort => 1
  | .invalidLength  => 2
  | .invalidChar    => 3
  | .illegal        => 4

/-- The word STATUS reads as: bit 7 BUSY, bits 6:3 zero, bits 2:0 ERR (10_state.md R7). -/
def statusWord (s : State) : Byte :=
  BitVec.ofBool s.busy ++ (0 : BitVec 4) ++ errCode s.err

end Sys2Proof.Machine
end

