-- ==== Sys2Proof/Machine/HostActions.lean ====
section
/-! DEFINITION. The host's seven actions and their effects, idle and busy (20_memory.md R28). -/

namespace Sys2Proof.Machine

/-- What a read of register `r` returns: CMD 0x00, STATUS its word, ILEN, OCAP and COUNT their values
(20_memory.md R28, 10_state.md R6 to R10). There is no register above 4. -/
def regRead? (s : State) : Nat → Option Nat
  | 0 => some 0
  | 1 => some (statusWord s).toNat
  | 2 => some s.ilen
  | 3 => some s.ocap
  | 4 => some s.count
  | _ => none

/-- A write of register `r` with BUSY = 0: CMD issues, ILEN and OCAP take the value, STATUS and COUNT
ignore it (20_memory.md R28). -/
def regWrite (r v : Nat) (s : State) : State :=
  match r with
  | 0 => issue (BitVec.ofNat 8 v) s
  | 2 => { s with ilen := v }
  | 3 => { s with ocap := v }
  | _ => s

/-- An action's effect while BUSY = 0 (20_memory.md R28). -/
def actIdle (a : HostAction) (s : State) : State :=
  match a with
  | .writeReg r v => regWrite r v s
  | .readReg r =>
    match regRead? s r with
    | some v => answer (.reg r v) s
    | none => s
  | .writeIn i b => writeIn s i (BitVec.ofNat 8 b)
  | .readIn i => answer (.inByte i (readIn s i)) s
  | .writeOut i b => writeOut s i (BitVec.ofNat 8 b)
  | .readOut i => answer (.outByte i (readOut s i)) s
  | .reset => hostReset s

/-- An action's effect while BUSY = 1: writes are ignored, a read of OUT returns any value, the other
reads answer as when idle, reset resets (20_memory.md R28, 70_reset_and_hazards.md R93, R95). -/
def actBusy (a : HostAction) (s : State) : State :=
  match a with
  | .writeReg _ _ => s
  | .readReg r =>
    match regRead? s r with
    | some v => answer (.reg r v) s
    | none => s
  | .writeIn _ _ => s
  | .readIn i => answer (.inByte i (readIn s i)) s
  | .writeOut _ _ => s
  | .readOut i =>
    answer (.outByte i (Config.outWhileBusy s.unit s.draws)) { s with draws := s.draws + 1 }
  | .reset => hostReset s

/-- One host action: its effect where it is admitted, no step where it is not (20_memory.md R28). -/
def hostAct (a : HostAction) (s : State) : Host.Outcome State Fault Refusal :=
  if a.admitted s.params then
    .next (if s.busy then actBusy a s else actIdle a s)
  else .refused (.hostActionNotAdmitted a)

end Sys2Proof.Machine
end

