-- ==== Sys2Proof/Machine/Step.lean ====
section
/-! DEFINITION. One step of the machine: the next event of the schedule. -/

namespace Sys2Proof.Machine

/-- The core's turn: a command in progress completes, a reserved word with `Illegal`
(70_reset_and_hazards.md R97, 30_encoding.md R39); an idle core holds its state (60_exceptions.md R91). -/
def coreTurn (s : State) : Host.Outcome State Fault Refusal :=
  if s.busy then
    match decode [s.latch] with
    | .ok (i, _) => exec i s
    | .error _ => .next (raise .illegal s)
  else .next s

/-- The next event of the schedule; when the schedule has run out it is the core's turn, so that a
command in progress completes unless a reset abandons it (70_reset_and_hazards.md R93, R98,
notes/assumptions/5.md). -/
def step (s : State) : Host.Outcome State Fault Refusal :=
  match s.schedule with
  | [] => coreTurn s
  | .core :: rest => coreTurn { s with schedule := rest }
  | .host a :: rest => hostAct a { s with schedule := rest }

/-- The state in which the word was just issued and the core's turn is next: there is no instruction
memory, the word is latched (10_state.md R6, R14, 20_memory.md R32, notes/assumptions/6.md). -/
def State.withFetchWord (s : State) (nbits w : Nat) : State :=
  { issue (BitVec.ofNat 8 (w % 2 ^ nbits)) s with schedule := .core :: s.schedule }

end Sys2Proof.Machine
end

