-- ==== Sys2Proof/Machine/HostProgram.lean ====
section
/-! DEFINITION. The host-program syntax: what a line stands for (30_encoding.md R42). -/

namespace Sys2Proof.Machine

/-- `HWriteIn(i, b0), HWriteIn(i+1, b1), ...`. -/
def writeInRun : Nat → List Nat → List Event
  | _, [] => []
  | i, b :: bs => .host (.writeIn i b) :: writeInRun (i + 1) bs

/-- `HWriteOut(i, b0), HWriteOut(i+1, b1), ...`. -/
def writeOutRun : Nat → List Nat → List Event
  | _, [] => []
  | i, b :: bs => .host (.writeOut i b) :: writeOutRun (i + 1) bs

/-- The character codes of a text; a character above 255 is not admitted as a byte
(notes/assumptions/18.md). -/
def textBytes (text : List Char) : List Nat := text.map Char.toNat

/-- `WAIT`: polls of STATUS until BUSY reads 0: `k` of them while busy, then the completion, then the
one that ends it (30_encoding.md R42, notes/assumptions/15.md). -/
def waitRun (k : Nat) : List Event :=
  List.replicate k (.host (.readReg 1)) ++ [.core, .host (.readReg 1)]

/-- The expansion shared by ENCODE_CALL and DECODE_CALL. -/
def callRun (i : Instr) (text : List Char) (cap k : Nat) : List Event :=
  writeInRun 0 (textBytes text) ++
    [.host (.writeReg 2 text.length), .host (.writeReg 3 cap),
      .host (.writeReg 0 (encode i).toNat)] ++
    waitRun k ++ [.host (.readReg 1), .host (.readReg 4)]

/-- The events a line stands for (30_encoding.md R42). The core's turn stands only where the line says so,
in `completes` and inside a `WAIT`: DESIGN CHOICE, notes/assumptions/24.md. -/
def expandLine : HostLine → List Event
  | .wrin i bytes    => writeInRun i bytes
  | .wrinText i text => writeInRun i (textBytes text)
  | .wrout i bytes   => writeOutRun i bytes
  | .wrIlen v        => [.host (.writeReg 2 v)]
  | .wrOcap v        => [.host (.writeReg 3 v)]
  | .cmd i           => [.host (.writeReg 0 (encode i).toNat)]
  | .cmdWord w       => [.host (.writeReg 0 w)]
  | .rdStatus        => [.host (.readReg 1)]
  | .rdCount         => [.host (.readReg 4)]
  | .rdIlen          => [.host (.readReg 2)]
  | .rdOcap          => [.host (.readReg 3)]
  | .rdCmd           => [.host (.readReg 0)]
  | .rdout i k       => (List.range k).map fun j => .host (.readOut (i + j))
  | .rdin i k        => (List.range k).map fun j => .host (.readIn (i + j))
  | .reset           => [.host .reset]
  | .completes       => [.core]
  | .wait k          => waitRun k
  | .encodeCall text cap k => callRun .encode text cap k
  | .decodeCall text cap k => callRun .decode text cap k

/-- A host program is its lines one after the other. When a command completes among the lines after its
`CMD` is open (70_reset_and_hazards.md R97, R98: `LATENCY`); DESIGN CHOICE, notes/assumptions/24.md: at the
first `completes` or `WAIT` that follows, the lines before that acting while BUSY = 1, and without either
when the events have run out. -/
def expandProgram (lines : List HostLine) : List Event := lines.flatMap expandLine

end Sys2Proof.Machine
end

