-- ==== Sys2Proof/Machine/Instances.lean ====
section
/-! DEFINITION. Several instances: independent machines that share nothing (20_memory.md R31). Their
unspecified bytes are drawn apart when their numbers `unit` differ (DESIGN CHOICE, notes/assumptions/23.md). -/

namespace Sys2Proof.Machine

/-- One step of instance `k` of several; the others are as they were. -/
def stepInstance (k : Nat) (ms : List State) : Host.Outcome (List State) Fault Refusal :=
  match ms[k]? with
  | none => .next ms
  | some s =>
    match step s with
    | .next t => .next (ms.set k t)
    | .fault f => .fault f
    | .refused r => .refused r

end Sys2Proof.Machine
end

