-- ==== Sys2Proof/Safety.lean ====
section
/-! DEFINITION. What a safe run is and the relations between states that claims are stated in. -/

namespace Sys2Proof.Machine

/-- The invariant of an instance: both buffers in canonical form within their sizes, the length
registers within LEN_W bits (10_state.md R8 to R10, 43_buffer_ops.md R80), no more counted than OUT
holds, nothing counted under an error (R10), ERR and COUNT clear while busy (10_state.md R6, R7). -/
abbrev Inv (s : State) : Prop :=
  Memory.wf s.params.inSize s.inBuf = true ∧
  Memory.wf s.params.outSize s.outBuf = true ∧
  s.ilen < 2 ^ s.params.lenW ∧
  s.ocap < 2 ^ s.params.lenW ∧
  s.count < 2 ^ s.params.lenW ∧
  s.count ≤ s.params.outSize ∧
  (s.err ≠ .ok → s.count = 0) ∧
  (s.busy = true → s.err = .ok ∧ s.count = 0)

/-- What no command writes: the instance, every byte of IN, ILEN and OCAP (20_memory.md R25). -/
structure OperandsKept (s t : State) : Prop where
  params : t.params = s.params
  input : ∀ x, readIn t x = readIn s x
  ilen : t.ilen = s.ilen
  ocap : t.ocap = s.ocap

/-- What a command leaves of the model's own fields: what the host does, has read, and the indices of
the free values, the instance's number among them. -/
structure HostKept (s t : State) : Prop where
  schedule : t.schedule = s.schedule
  returned : t.returned = s.returned
  unit : t.unit = s.unit
  resets : t.resets = s.resets
  draws : t.draws = s.draws

/-- `t` is `s` after a command that ended with the outcome `e` and the count `n`: idle, ERR and COUNT
so, every byte of OUT from index `n` on as it was, and everything else as it was. What the first `n`
bytes of OUT hold is said beside it. -/
structure Completed (e : Err) (n : Nat) (s t : State) : Prop where
  err : t.err = e
  count : t.count = n
  idle : t.busy = false
  output : ∀ x, n ≤ x → readOut t x = readOut s x
  operands : OperandsKept s t
  host : HostKept s t

/-- How many bytes of IN a command reads, from IN[0] on (20_memory.md R25). -/
def bytesRead (s : State) : Instr → Nat
  | .tochar | .todigit | .enc1 => 1
  | .enc2 | .dec2 => 2
  | .enc3 | .dec3 => 3
  | .enc4 | .dec4 => 4
  | .dec5 => 5
  | .encode | .decode => s.ilen

/-- Whether a command takes ILEN and OCAP as operands (30_encoding.md R40). -/
def readsLengths : Instr → Bool
  | .encode | .decode => true
  | .tochar | .todigit | .enc1 | .enc2 | .enc3 | .enc4 | .dec2 | .dec3 | .dec4 | .dec5 => false

/-- Which command can report which outcome: the table of 60_exceptions.md R82. -/
def mayReport : Instr → Err → Bool
  | _, .ok => true
  | .tochar, e => e == .illegal
  | .todigit, e => e == .invalidChar
  | .enc1, _ | .enc2, _ | .enc3, _ | .enc4, _ => false
  | .dec2, e | .dec3, e | .dec4, e | .dec5, e => e == .invalidChar
  | .encode, e => e == .outputTooShort || e == .illegal
  | .decode, _ => true

/-- Two states agree on everything a command depends on: the instance, the bytes of IN it reads and,
where it takes them, ILEN and OCAP (00_scope.md R2). -/
structure SameOperands (i : Instr) (s₁ s₂ : State) : Prop where
  params : s₁.params = s₂.params
  lengths : readsLengths i = true → s₁.ilen = s₂.ilen ∧ s₁.ocap = s₂.ocap
  input : ∀ x, x < bytesRead s₁ i → readIn s₁ x = readIn s₂ x

/-- Two states show the same block to the host: the instance, the registers and every byte of both
buffers; the host's own side may differ. -/
structure SameBlock (s t : State) : Prop where
  params : t.params = s.params
  input : ∀ x, readIn t x = readIn s x
  output : ∀ x, readOut t x = readOut s x
  ilen : t.ilen = s.ilen
  ocap : t.ocap = s.ocap
  count : t.count = s.count
  err : t.err = s.err
  busy : t.busy = s.busy

/-- A host action that resets the instance. -/
def isReset : HostAction → Bool
  | .reset => true
  | .writeReg _ _ | .readReg _ | .writeIn _ _ | .readIn _ | .writeOut _ _ | .readOut _ => false

/-- A host action that only reads (20_memory.md R28). -/
def isRead : HostAction → Bool
  | .readReg _ | .readIn _ | .readOut _ => true
  | .writeReg _ _ | .writeIn _ _ | .writeOut _ _ | .reset => false

/-- Every event still to come is admitted (20_memory.md R28): the runs a host that keeps to the
block's spaces makes. A step of such a state is never refused. -/
def ScheduleAdmitted (s : State) : Prop := ∀ e ∈ s.schedule, e.admitted s.params = true

end Sys2Proof.Machine
end

