-- ==== Sys2Proof/Certificates/Slice0/Obligations.lean ====
section
/-! DEFINITION. The statements for the provers, one definition each, in the order of OBLIGATIONS.json. -/

open Sys2Proof Sys2Proof.Machine

/-! ### The alphabet -/

/-- 40_alphabet.md R43 and 30_encoding.md R34: the valid bytes are the 85 of the two ranges, 52 below
the gap and 33 above it. -/
def Obligations.AlphabetIsTheTwoRanges : Prop :=
  (∀ c : Byte, isValid c = true ↔
    (0x28 ≤ c.toNat ∧ c.toNat ≤ 0x5B) ∨ (0x5D ≤ c.toNat ∧ c.toNat ≤ 0x7D)) ∧
  ((List.range 256).filter fun n => isValid (BitVec.ofNat 8 n)).length = 85 ∧
  ((List.range 0x5C).filter fun n => isValid (BitVec.ofNat 8 n)).length = 52 ∧
  ((List.range 256).filter fun n => decide (0x5C < n) && isValid (BitVec.ofNat 8 n)).length = 33 ∧
  ((List.range 256).filter fun n => !isValid (BitVec.ofNat 8 n)).length = 171 ∧
  isValid 0x5C = false ∧ isValid 0x27 = false ∧ isValid 0x7E = false ∧
  ∀ c : Byte, c.getLsbD 7 = true → isValid c = false

/-- 40_alphabet.md R44: `to_char` on every digit, always a valid byte; no value above 84. -/
def Obligations.ToCharClosesTheGap : Prop :=
  (∀ d : Digit, (toChar d).toNat = (if 0x28 + d.val ≥ 0x5C then 0x28 + d.val + 1 else 0x28 + d.val) ∧
    (d.val ≤ 51 → (toChar d).toNat = 0x28 + d.val) ∧ (52 ≤ d.val → (toChar d).toNat = 0x29 + d.val) ∧
    isValid (toChar d) = true ∧ charOf? d.val = some (toChar d)) ∧
  ∀ n, 84 < n → charOf? n = none

/-- 40_alphabet.md R45: `to_digit` on every valid byte; R47 gives it no value elsewhere. -/
def Obligations.ToDigitOnValidBytesOnly : Prop :=
  (∀ c : Byte, isValid c = true → ∃ d : Digit, toDigit? c = some d ∧
    d.val = (if c.toNat ≥ 0x5C then c.toNat - 0x28 - 1 else c.toNat - 0x28)) ∧
  ∀ c : Byte, isValid c = false → toDigit? c = none

/-- 40_alphabet.md R46: the two functions are inverse bijections, both strictly increasing. -/
def Obligations.AlphabetBijection : Prop :=
  (∀ d : Digit, isValid (toChar d) = true ∧ toDigit? (toChar d) = some d) ∧
  (∀ c : Byte, isValid c = true → ∃ d : Digit, toDigit? c = some d ∧ toChar d = c) ∧
  (∀ d e : Digit, d < e → (toChar d).toNat < (toChar e).toNat) ∧
  ∀ (b c : Byte) (d e : Digit), toDigit? b = some d → toDigit? c = some e → b.toNat < c.toNat → d < e

/-- 42_decode_group.md R61: a list of characters has digits exactly when all of it is valid, and they
are then the digits of its characters. -/
def Obligations.ValidationPrecedesLookup : Prop :=
  ∀ chars : List Byte,
    (digits? chars = none ↔ ∃ c ∈ chars, isValid c = false) ∧
    ∀ ds : List Digit, digits? chars = some ds ↔ chars.map toDigit? = ds.map some

/-! ### Groups -/

/-- 41_encode_group.md R50: the little-endian value of a byte list, its bound, missing high bytes
counting as zero. -/
def Obligations.LittleEndianValue : Prop :=
  ∀ bytes : List Byte,
    leValue bytes = ∑ i ∈ Finset.range bytes.length, 256 ^ i * (bytes.getD i 0).toNat ∧
    leValue bytes < 256 ^ bytes.length ∧
    ∀ k, leValue (bytes ++ List.replicate k 0) = leValue bytes

/-- 41_encode_group.md R51: the characters of an encoded group, in closed form, all valid. -/
def Obligations.EncodedGroupDigits : Prop :=
  ∀ bytes : List Byte, 1 ≤ bytes.length → bytes.length ≤ 4 →
    (encGroup bytes).length = bytes.length + 1 ∧
    (∀ i, i ≤ bytes.length → (encGroup bytes)[i]? = charOf? (leValue bytes / 85 ^ i % 85)) ∧
    ∀ c ∈ encGroup bytes, isValid c = true

/-- 41_encode_group.md R52: nothing is left after the divisions, and encoding a group is injective. -/
def Obligations.EncodedGroupLosesNothing : Prop :=
  (∀ bytes : List Byte, 1 ≤ bytes.length → bytes.length ≤ 4 →
    leValue bytes < 256 ^ bytes.length ∧ 256 ^ bytes.length < 85 ^ (bytes.length + 1) ∧
    leValue bytes / 85 ^ (bytes.length + 1) = 0) ∧
  ∀ b₁ b₂ : List Byte, 1 ≤ b₁.length → b₁.length ≤ 4 → b₂.length = b₁.length →
    encGroup b₁ = encGroup b₂ → b₁ = b₂

/-- 41_encode_group.md R57: how large the last character of an encoded group can be. -/
def Obligations.EncodedGroupLastCharacter : Prop :=
  ∀ bytes : List Byte,
    (bytes.length = 1 → ((encGroup bytes).getD 1 0).toNat ≤ 0x2B) ∧
    (bytes.length = 2 → ((encGroup bytes).getD 2 0).toNat ≤ 0x31) ∧
    (bytes.length = 3 → ((encGroup bytes).getD 3 0).toNat ≤ 0x43) ∧
    (bytes.length = 4 → ((encGroup bytes).getD 4 0).toNat ≤ 0x7B)

/-- 42_decode_group.md R58: the exact base-85 value of 2 to 5 digits and its bounds. -/
def Obligations.DecodedGroupValue : Prop :=
  ∀ ds : List Digit, 2 ≤ ds.length → ds.length ≤ 5 →
    decValue ds = ∑ i ∈ Finset.range ds.length, 85 ^ i * (ds.getD i 0).val ∧
    decValue ds ≤ 85 ^ ds.length - 1 ∧
    decValue ds < 2 ^ 33 ∧
    (ds.length ≤ 4 → decValue ds < 2 ^ 26)

/-- 42_decode_group.md R59: the bytes of a decoded group, and that an accumulator of 32 bits with
wrap-around after every step gives the same bytes. -/
def Obligations.DecodedGroupBytes : Prop :=
  ∀ ds : List Digit, 2 ≤ ds.length → ds.length ≤ 5 →
    (decGroup ds).length = ds.length - 1 ∧
    (∀ j, j < ds.length - 1 → ((decGroup ds).getD j 0).toNat = decValue ds / 256 ^ j % 256) ∧
    decGroup ds = lowBytes (ds.length - 1) (ds.foldr (fun d acc => (d.val + 85 * acc) % 2 ^ 32) 0)

/-- 42_decode_group.md R60: a group whose value does not fit in its bytes is decoded without an error,
to the value reduced to those bytes, by each of the four commands. -/
def Obligations.OverlargeGroupIsTruncated : Prop :=
  ∀ (s : State) (m : Nat) (i : Instr),
    (m, i) ∈ [(2, Instr.dec2), (3, .dec3), (4, .dec4), (5, .dec5)] →
    ∀ ds : List Digit, digits? (memReadIn s 0 m) = some ds → 256 ^ (m - 1) ≤ decValue ds →
    ∃ t, exec i s = .next t ∧ Completed .ok (m - 1) s t ∧
      leValue ((List.range (m - 1)).map (readOut t)) = decValue ds % 256 ^ (m - 1)

/-- 42_decode_group.md R66: decoding inverts encoding on every group; the other way round exactly for
the values that fit. -/
def Obligations.GroupRoundTrip : Prop :=
  (∀ bytes : List Byte, 1 ≤ bytes.length → bytes.length ≤ 4 →
    ∃ ds, digits? (encGroup bytes) = some ds ∧ decGroup ds = bytes) ∧
  ∀ (chars : List Byte) (ds : List Digit), 2 ≤ chars.length → chars.length ≤ 5 →
    digits? chars = some ds →
    (encGroup (decGroup ds) = chars ↔ decValue ds < 256 ^ (chars.length - 1))

/-! ### Alphabet and group commands -/

/-- 40_alphabet.md R48. -/
def Obligations.TocharResult : Prop :=
  ∀ s : State,
    ((readIn s 0).toNat ≤ 84 → ∃ t, exec .tochar s = .next t ∧ Completed .ok 1 s t ∧
      charOf? (readIn s 0).toNat = some (readOut t 0)) ∧
    (84 < (readIn s 0).toNat → ∃ t, exec .tochar s = .next t ∧ Completed .illegal 0 s t)

/-- 40_alphabet.md R49. -/
def Obligations.TodigitResult : Prop :=
  ∀ s : State,
    (∀ d, toDigit? (readIn s 0) = some d → ∃ t, exec .todigit s = .next t ∧ Completed .ok 1 s t ∧
      (readOut t 0).toNat = d.val) ∧
    (isValid (readIn s 0) = false →
      ∃ t, exec .todigit s = .next t ∧ Completed .invalidChar 0 s t)

/-- 41_encode_group.md R56. -/
def Obligations.Enc1Result : Prop :=
  ∀ (s : State) (v : Nat), v = (readIn s 0).toNat →
    ∃ t, exec .enc1 s = .next t ∧ Completed .ok 2 s t ∧
      charOf? (v % 85) = some (readOut t 0) ∧
      charOf? (v / 85) = some (readOut t 1) ∧ v / 85 ≤ 3

/-- 41_encode_group.md R55. -/
def Obligations.Enc2Result : Prop :=
  ∀ (s : State) (v : Nat), v = (readIn s 0).toNat + 256 * (readIn s 1).toNat →
    ∃ t, exec .enc2 s = .next t ∧ Completed .ok 3 s t ∧
      charOf? (v % 85) = some (readOut t 0) ∧
      charOf? (v / 85 % 85) = some (readOut t 1) ∧
      charOf? (v / 7225) = some (readOut t 2) ∧ v / 7225 ≤ 9

/-- 41_encode_group.md R54, with its remark on padding a remainder group with zero bytes. -/
def Obligations.Enc3Result : Prop :=
  (∀ (s : State) (v : Nat),
    v = (readIn s 0).toNat + 256 * (readIn s 1).toNat + 65536 * (readIn s 2).toNat →
    ∃ t, exec .enc3 s = .next t ∧ Completed .ok 4 s t ∧
      charOf? (v % 85) = some (readOut t 0) ∧
      charOf? (v / 85 % 85) = some (readOut t 1) ∧
      charOf? (v / 7225 % 85) = some (readOut t 2) ∧
      charOf? (v / 614125) = some (readOut t 3) ∧ v / 614125 ≤ 27) ∧
  ∀ (bytes : List Byte) (k : Nat), 1 ≤ bytes.length → bytes.length + k = 4 →
    encGroup (bytes ++ List.replicate k 0) = encGroup bytes ++ List.replicate k 0x28

/-- 41_encode_group.md R53. -/
def Obligations.Enc4Result : Prop :=
  ∀ (s : State) (v : Nat),
    v = (readIn s 0).toNat + 256 * (readIn s 1).toNat + 65536 * (readIn s 2).toNat +
      16777216 * (readIn s 3).toNat →
    ∃ t, exec .enc4 s = .next t ∧ Completed .ok 5 s t ∧
      charOf? (v % 85) = some (readOut t 0) ∧
      charOf? (v / 85 % 85) = some (readOut t 1) ∧
      charOf? (v / 7225 % 85) = some (readOut t 2) ∧
      charOf? (v / 614125 % 85) = some (readOut t 3) ∧
      charOf? (v / 52200625) = some (readOut t 4) ∧ v / 52200625 ≤ 82

/-- 42_decode_group.md R65. -/
def Obligations.Dec2Result : Prop :=
  ∀ s : State,
    (∀ (d₀ d₁ : Digit) (v : Nat),
      toDigit? (readIn s 0) = some d₀ → toDigit? (readIn s 1) = some d₁ →
      v = d₀.val + 85 * d₁.val →
      v ≤ 7224 ∧ ∃ t, exec .dec2 s = .next t ∧ Completed .ok 1 s t ∧ (readOut t 0).toNat = v % 256) ∧
    ((∃ x, x < 2 ∧ isValid (readIn s x) = false) →
      ∃ t, exec .dec2 s = .next t ∧ Completed .invalidChar 0 s t)

/-- 42_decode_group.md R64. -/
def Obligations.Dec3Result : Prop :=
  ∀ s : State,
    (∀ (d₀ d₁ d₂ : Digit) (v : Nat),
      toDigit? (readIn s 0) = some d₀ → toDigit? (readIn s 1) = some d₁ →
      toDigit? (readIn s 2) = some d₂ →
      v = d₀.val + 85 * d₁.val + 7225 * d₂.val →
      v ≤ 614124 ∧ ∃ t, exec .dec3 s = .next t ∧ Completed .ok 2 s t ∧
        (readOut t 0).toNat = v % 256 ∧ (readOut t 1).toNat = v / 256 % 256) ∧
    ((∃ x, x < 3 ∧ isValid (readIn s x) = false) →
      ∃ t, exec .dec3 s = .next t ∧ Completed .invalidChar 0 s t)

/-- 42_decode_group.md R63. -/
def Obligations.Dec4Result : Prop :=
  ∀ s : State,
    (∀ (d₀ d₁ d₂ d₃ : Digit) (v : Nat),
      toDigit? (readIn s 0) = some d₀ → toDigit? (readIn s 1) = some d₁ →
      toDigit? (readIn s 2) = some d₂ → toDigit? (readIn s 3) = some d₃ →
      v = d₀.val + 85 * d₁.val + 7225 * d₂.val + 614125 * d₃.val →
      v ≤ 52200624 ∧ ∃ t, exec .dec4 s = .next t ∧ Completed .ok 3 s t ∧
        (readOut t 0).toNat = v % 256 ∧ (readOut t 1).toNat = v / 256 % 256 ∧
        (readOut t 2).toNat = v / 65536 % 256) ∧
    ((∃ x, x < 4 ∧ isValid (readIn s x) = false) →
      ∃ t, exec .dec4 s = .next t ∧ Completed .invalidChar 0 s t)

/-- 42_decode_group.md R62. -/
def Obligations.Dec5Result : Prop :=
  ∀ s : State,
    (∀ (d₀ d₁ d₂ d₃ d₄ : Digit) (v : Nat),
      toDigit? (readIn s 0) = some d₀ → toDigit? (readIn s 1) = some d₁ →
      toDigit? (readIn s 2) = some d₂ → toDigit? (readIn s 3) = some d₃ →
      toDigit? (readIn s 4) = some d₄ →
      v = d₀.val + 85 * d₁.val + 7225 * d₂.val + 614125 * d₃.val + 52200625 * d₄.val →
      v ≤ 4437053124 ∧ ∃ t, exec .dec5 s = .next t ∧ Completed .ok 4 s t ∧
        (readOut t 0).toNat = v % 256 ∧ (readOut t 1).toNat = v / 256 % 256 ∧
        (readOut t 2).toNat = v / 65536 % 256 ∧ (readOut t 3).toNat = v / 16777216 % 256) ∧
    ((∃ x, x < 5 ∧ isValid (readIn s x) = false) →
      ∃ t, exec .dec5 s = .next t ∧ Completed .invalidChar 0 s t)

/-! ### Whole-buffer commands -/

/-- 43_buffer_ops.md R67: the encoded length and its two other forms. -/
def Obligations.EncodedLength : Prop :=
  (∀ l, encLen l = l * 5 / 4 + (if l % 4 ≠ 0 then 1 else 0)) ∧
  (∀ q r, r ≤ 3 → encLen (4 * q + r) = if r = 0 then 5 * q else 5 * q + r + 1) ∧
  ∀ l, encLen l = (5 * l + 3) / 4

/-- 43_buffer_ops.md R68: the decoded length and its form by remainder. -/
def Obligations.DecodedLength : Prop :=
  (∀ m, decLen m = m * 4 / 5) ∧
  ∀ q s, s ≤ 4 → decLen (5 * q + s) = 4 * q + (if s = 0 then 0 else s - 1)

/-- The three facts that follow 43_buffer_ops.md R68. -/
def Obligations.LengthsInvert : Prop :=
  (∀ l, decLen (encLen l) = l ∧ encLen l % 5 ≠ 1) ∧
  ∀ m, m % 5 ≠ 1 → encLen (decLen m) = m

/-- 43_buffer_ops.md R69: ENCODE's checks in their order; past them it succeeds. -/
def Obligations.EncodeChecksInOrder : Prop :=
  ∀ s : State,
    (s.ilen > s.params.inSize ∨ s.ocap > s.params.outSize →
      ∃ t, exec .encode s = .next t ∧ Completed .illegal 0 s t) ∧
    (s.ilen ≤ s.params.inSize → s.ocap ≤ s.params.outSize → s.ocap < encLen s.ilen →
      ∃ t, exec .encode s = .next t ∧ Completed .outputTooShort 0 s t) ∧
    (s.ilen ≤ s.params.inSize → s.ocap ≤ s.params.outSize → encLen s.ilen ≤ s.ocap →
      ∃ t, exec .encode s = .next t ∧ Completed .ok (encLen s.ilen) s t)

/-- 43_buffer_ops.md R70, R71: past its checks ENCODE encodes group by group, and every byte it writes
is a valid character. -/
def Obligations.EncodeWritesTheGroups : Prop :=
  ∀ s : State, s.ilen ≤ s.params.inSize → s.ocap ≤ s.params.outSize → encLen s.ilen ≤ s.ocap →
    ∃ t, exec .encode s = .next t ∧ Completed .ok (encLen s.ilen) s t ∧
      (∀ g j, g < s.ilen / 4 → j < 5 →
        some (readOut t (5 * g + j)) = (encGroup (memReadIn s (4 * g) 4))[j]?) ∧
      (s.ilen % 4 ≠ 0 → ∀ j, j < s.ilen % 4 + 1 →
        some (readOut t (5 * (s.ilen / 4) + j)) =
          (encGroup (memReadIn s (4 * (s.ilen / 4)) (s.ilen % 4)))[j]?) ∧
      ∀ x, x < encLen s.ilen → isValid (readOut t x) = true ∧ readOut t x ≠ 0x5C

/-- 43_buffer_ops.md R72: DECODE's checks in their order; past them it succeeds. -/
def Obligations.DecodeChecksInOrder : Prop :=
  ∀ s : State,
    (s.ilen > s.params.inSize ∨ s.ocap > s.params.outSize →
      ∃ t, exec .decode s = .next t ∧ Completed .illegal 0 s t) ∧
    (s.ilen ≤ s.params.inSize → s.ocap ≤ s.params.outSize → s.ilen % 5 = 1 →
      ∃ t, exec .decode s = .next t ∧ Completed .invalidLength 0 s t) ∧
    (s.ilen ≤ s.params.inSize → s.ocap ≤ s.params.outSize → s.ilen % 5 ≠ 1 → s.ocap < decLen s.ilen →
      ∃ t, exec .decode s = .next t ∧ Completed .outputTooShort 0 s t) ∧
    (s.ilen ≤ s.params.inSize → s.ocap ≤ s.params.outSize → s.ilen % 5 ≠ 1 → decLen s.ilen ≤ s.ocap →
      (∃ x, x < s.ilen ∧ isValid (readIn s x) = false) →
      ∃ t, exec .decode s = .next t ∧ Completed .invalidChar 0 s t) ∧
    (s.ilen ≤ s.params.inSize → s.ocap ≤ s.params.outSize → s.ilen % 5 ≠ 1 → decLen s.ilen ≤ s.ocap →
      (∀ x, x < s.ilen → isValid (readIn s x) = true) →
      ∃ t, exec .decode s = .next t ∧ Completed .ok (decLen s.ilen) s t)

/-- 43_buffer_ops.md R73: past its checks DECODE decodes group by group. -/
def Obligations.DecodeWritesTheGroups : Prop :=
  ∀ s : State, s.ilen ≤ s.params.inSize → s.ocap ≤ s.params.outSize → s.ilen % 5 ≠ 1 →
    decLen s.ilen ≤ s.ocap → (∀ x, x < s.ilen → isValid (readIn s x) = true) →
    ∃ t, exec .decode s = .next t ∧ Completed .ok (decLen s.ilen) s t ∧
      (∀ g, g < s.ilen / 5 → ∃ ds, digits? (memReadIn s (5 * g) 5) = some ds ∧
        ∀ j, j < 4 → some (readOut t (4 * g + j)) = (decGroup ds)[j]?) ∧
      (s.ilen % 5 ≠ 0 →
        ∃ ds, digits? (memReadIn s (5 * (s.ilen / 5)) (s.ilen % 5)) = some ds ∧
        ∀ j, j < s.ilen % 5 - 1 → some (readOut t (4 * (s.ilen / 5) + j)) = (decGroup ds)[j]?)

/-- 43_buffer_ops.md R76, with the wrapper's check of OCAP that 90_conflicts.md C3 adds: what ENCODE
writes, DECODE gives back, for every input that fits. -/
def Obligations.BufferRoundTrip : Prop :=
  ∀ s : State, s.ilen ≤ s.params.inSize → encLen s.ilen ≤ s.params.outSize →
    encLen s.ilen ≤ s.params.inSize → encLen s.ilen ≤ s.ocap → s.ocap ≤ s.params.outSize →
    ∃ t, exec .encode s = .next t ∧ t.err = .ok ∧ t.count = encLen s.ilen ∧
      ∀ u : State, u.params = s.params → (∀ x, x < t.count → readIn u x = readOut t x) →
        u.ilen = t.count → s.ilen ≤ u.ocap → u.ocap ≤ u.params.outSize →
        ∃ w, exec .decode u = .next w ∧ w.err = .ok ∧ w.count = s.ilen ∧
          ∀ x, x < s.ilen → readOut w x = readIn s x

/-- 43_buffer_ops.md R77: the empty input succeeds for every capacity OUT has, and no byte of OUT
changes. -/
def Obligations.EmptyInputSucceeds : Prop :=
  ∀ s : State, s.ilen = 0 → s.ocap ≤ s.params.outSize →
    (∃ t, exec .encode s = .next t ∧ Completed .ok 0 s t) ∧
    ∃ t, exec .decode s = .next t ∧ Completed .ok 0 s t

/-- The part of 43_buffer_ops.md R78 that says where a stream may be cut: encoding the first 4k bytes
and the rest in two commands gives the characters of one command. -/
def Obligations.EncodeMayBeCutAtGroups : Prop :=
  ∀ (s s₁ s₂ : State) (k : Nat),
    s.ilen ≤ s.params.inSize → s.ocap ≤ s.params.outSize → encLen s.ilen ≤ s.ocap → 4 * k ≤ s.ilen →
    s₁.params = s.params → s₁.ocap = s.ocap → s₁.ilen = 4 * k →
    (∀ x, x < 4 * k → readIn s₁ x = readIn s x) →
    s₂.params = s.params → s₂.ocap = s.ocap → s₂.ilen = s.ilen - 4 * k →
    (∀ x, x < s₂.ilen → readIn s₂ x = readIn s (4 * k + x)) →
    ∃ t t₁ t₂, exec .encode s = .next t ∧ exec .encode s₁ = .next t₁ ∧ exec .encode s₂ = .next t₂ ∧
      t.err = .ok ∧ t₁.err = .ok ∧ t₂.err = .ok ∧ t.count = t₁.count + t₂.count ∧
      (∀ x, x < t₁.count → readOut t x = readOut t₁ x) ∧
      ∀ x, x < t₂.count → readOut t (t₁.count + x) = readOut t₂ x

/-- 43_buffer_ops.md R80: the lengths are exact, so a successful command's count is the formula's
value, within OCAP, and never truncates. -/
def Obligations.CountNeverTruncates : Prop :=
  ∀ (s : State) (t : State),
    (exec .encode s = .next t → t.err = .ok →
      t.count = encLen s.ilen ∧ t.count ≤ s.ocap ∧ s.ocap < 2 ^ s.params.lenW ∧
      s.ilen * 5 < 2 ^ (s.params.lenW + 3)) ∧
    (exec .decode s = .next t → t.err = .ok →
      t.count = decLen s.ilen ∧ t.count ≤ s.ocap ∧ s.ocap < 2 ^ s.params.lenW ∧
      s.ilen * 4 < 2 ^ (s.params.lenW + 3))

/-! ### Rules over all commands -/

/-- The frame of every command: it answers a next state in which at most the first COUNT bytes of OUT,
COUNT, ERR and BUSY differ (20_memory.md R25, 10_state.md R11, R12). That LATCH keeps its word after
completion is the model's choice (notes/assumptions/3.md). -/
def Obligations.EveryCommandFrame : Prop :=
  ∀ (i : Instr) (s : State), ∃ t, exec i s = .next t ∧ Completed t.err t.count s t ∧ t.latch = s.latch

/-- 60_exceptions.md R86: an error is precise. -/
def Obligations.ErrorsArePrecise : Prop :=
  ∀ (i : Instr) (s t : State), exec i s = .next t → t.err ≠ .ok → Completed t.err 0 s t

/-- 60_exceptions.md R82, its second table: a command reports exactly the outcomes the table gives it. -/
def Obligations.ErrorTable : Prop :=
  (∀ (i : Instr) (s t : State), exec i s = .next t → mayReport i t.err = true) ∧
  (∀ (i : Instr) (e : Err), mayReport i e = true → ∃ s t, exec i s = .next t ∧ t.err = e)

/-- 00_scope.md R2: a command's result is a function of its operands. -/
def Obligations.CommandsArePure : Prop :=
  ∀ (i : Instr) (s₁ s₂ : State), SameOperands i s₁ s₂ →
    ∃ t₁ t₂, exec i s₁ = .next t₁ ∧ exec i s₂ = .next t₂ ∧
      t₁.err = t₂.err ∧ t₁.count = t₂.count ∧ ∀ x, x < t₁.count → readOut t₁ x = readOut t₂ x

/-- 20_memory.md R26: every command is idempotent. -/
def Obligations.CommandsAreIdempotent : Prop :=
  ∀ (i : Instr) (s : State), ∃ t u, exec i s = .next t ∧ exec i t = .next u ∧
    u.err = t.err ∧ u.count = t.count ∧ ∀ x, readOut u x = readOut t x

/-- The part of 60_exceptions.md R87 on `OutputTooShort`: raising OCAP and issuing ENCODE again
succeeds. -/
def Obligations.EncodeRetryAfterTooShort : Prop :=
  ∀ (s : State) (cap : Nat), s.ilen ≤ s.params.inSize → s.ocap < encLen s.ilen →
    encLen s.ilen ≤ cap → cap ≤ s.params.outSize →
    ∃ t u, exec .encode s = .next t ∧ t.err = .outputTooShort ∧
      exec .encode { t with ocap := cap } = .next u ∧
      Completed .ok (encLen s.ilen) { t with ocap := cap } u

/-! ### Command words -/

/-- 30_encoding.md R38 and R37: the twelve words, spelled out; no other word is a command; a word is
`fn * 8 + n`. -/
def Obligations.TheTwelveWords : Prop :=
  (decodeWord 0x08 = .ok .tochar ∧ decodeWord 0x10 = .ok .todigit ∧ decodeWord 0x19 = .ok .enc1 ∧
   decodeWord 0x1A = .ok .enc2 ∧ decodeWord 0x1B = .ok .enc3 ∧ decodeWord 0x1C = .ok .enc4 ∧
   decodeWord 0x22 = .ok .dec2 ∧ decodeWord 0x23 = .ok .dec3 ∧ decodeWord 0x24 = .ok .dec4 ∧
   decodeWord 0x25 = .ok .dec5 ∧ decodeWord 0x28 = .ok .encode ∧ decodeWord 0x30 = .ok .decode) ∧
  (∀ (w : Byte) (i : Instr), decodeWord w = .ok i → encode i = w) ∧
  ∀ i : Instr, (encode i).toNat = i.fields.fn.toNat * 8 + i.fields.n.toNat

/-- Decode and encode agree, on byte strings and for every command: one command is one byte
(30_encoding.md R41). -/
def Obligations.DecodeEncodeAgree : Prop :=
  (∀ (i : Instr) (rest : List Byte), i.wellFormed = true → decode (encode i :: rest) = .ok (i, rest)) ∧
  ∀ (bytes rest : List Byte) (i : Instr), decode bytes = .ok (i, rest) → bytes = encode i :: rest

/-- 30_encoding.md R39: the 244 other words; issuing one completes with `Illegal`, whatever the state. -/
def Obligations.ReservedWordsAreIllegal : Prop :=
  ((List.range 256).filter fun n => !(decodeWord (BitVec.ofNat 8 n)).isOk).length = 244 ∧
  (∀ (w : Byte) (fn n : Nat), fn = (w.extractLsb' 3 3).toNat → n = (w.extractLsb' 0 3).toNat →
    (w.getLsbD 7 = true ∨ w.getLsbD 6 = true ∨ fn = 0 ∨ fn = 7 ∨
      (fn = 1 ∨ fn = 2 ∨ fn = 5 ∨ fn = 6) ∧ n ≠ 0 ∨ fn = 3 ∧ (n < 1 ∨ 4 < n) ∨
      fn = 4 ∧ (n < 2 ∨ 5 < n)) →
    ∀ i, decodeWord w ≠ .ok i) ∧
  (∀ i, decodeWord 0x00 ≠ .ok i) ∧ (∀ i, decodeWord 0x21 ≠ .ok i) ∧
  ∀ s : State, s.busy = true → (∀ i : Instr, encode i ≠ s.latch) →
    ∃ t, coreTurn s = .next t ∧ Completed .illegal 0 s t

/-- A step runs the decoded command: with a command in progress and the core's turn next, the step is
`exec` of the command the latched word decodes to. That an empty schedule is the core's turn is the
model's choice (notes/assumptions/5.md), and so is `withFetchWord`, the host's write of the word with the
core's turn next (notes/assumptions/6.md): the word it places is the one run. -/
def Obligations.StepRunsTheLatchedCommand : Prop :=
  (∀ (s : State) (i : Instr), s.busy = true → decode [s.latch] = .ok (i, []) →
    (s.schedule = [] → step s = exec i s) ∧
    ∀ rest, s.schedule = .core :: rest → step s = exec i { s with schedule := rest }) ∧
  ∀ (s : State) (i : Instr),
    step (s.withFetchWord 8 (encode i).toNat) = exec i (issue (encode i) s)

/-! ### The machine around the commands -/

/-- Which event a step takes (DESIGN CHOICE, notes/assumptions/5.md), and that an idle core holds its
state (60_exceptions.md R91). -/
def Obligations.StepTakesTheNextEvent : Prop :=
  (∀ s : State, s.schedule = [] → step s = coreTurn s) ∧
  (∀ (s : State) (rest : List Event), s.schedule = .core :: rest →
    step s = coreTurn { s with schedule := rest }) ∧
  (∀ (s : State) (a : HostAction) (rest : List Event), s.schedule = .host a :: rest →
    step s = hostAct a { s with schedule := rest }) ∧
  ∀ s : State, s.busy = false → coreTurn s = .next s

/-- The table of the host's actions in 20_memory.md R28, while idle and while busy (10_state.md R6 for the
issue). The model's choices beside it: what a read returned is appended to `returned`
(notes/assumptions/7.md), and a read of OUT while busy returns some byte and advances `draws`
(notes/assumptions/4.md). -/
def Obligations.HostActionTable : Prop :=
  ∀ s : State,
    -- admitted or refused
    (∀ a : HostAction, a.admitted s.params = false → hostAct a s = .refused (.hostActionNotAdmitted a)) ∧
    (∀ r v, HostAction.admitted s.params (.writeReg r v) = true ↔
      (r = 0 ∧ v ≤ 255) ∨ ((r = 2 ∨ r = 3) ∧ v < 2 ^ s.params.lenW) ∨ r = 1 ∨ r = 4) ∧
    (∀ r, HostAction.admitted s.params (.readReg r) = true ↔ r ≤ 4) ∧
    (∀ i b, HostAction.admitted s.params (.writeIn i b) = true ↔ i < s.params.inSize ∧ b ≤ 255) ∧
    (∀ i, HostAction.admitted s.params (.readIn i) = true ↔ i < s.params.inSize) ∧
    (∀ i b, HostAction.admitted s.params (.writeOut i b) = true ↔ i < s.params.outSize ∧ b ≤ 255) ∧
    (∀ i, HostAction.admitted s.params (.readOut i) = true ↔ i < s.params.outSize) ∧
    hostAct .reset s = .next (hostReset s) ∧
    -- reads of registers and of IN, idle or busy
    hostAct (.readReg 0) s = .next { s with returned := s.returned ++ [.reg 0 0] } ∧
    hostAct (.readReg 1) s =
      .next { s with returned := s.returned ++ [.reg 1 (statusWord s).toNat] } ∧
    hostAct (.readReg 2) s = .next { s with returned := s.returned ++ [.reg 2 s.ilen] } ∧
    hostAct (.readReg 3) s = .next { s with returned := s.returned ++ [.reg 3 s.ocap] } ∧
    hostAct (.readReg 4) s = .next { s with returned := s.returned ++ [.reg 4 s.count] } ∧
    (∀ i, i < s.params.inSize →
      hostAct (.readIn i) s = .next { s with returned := s.returned ++ [.inByte i (readIn s i)] }) ∧
    -- idle
    (s.busy = false →
      (∀ w, w ≤ 255 → hostAct (.writeReg 0 w) s =
        .next { s with latch := BitVec.ofNat 8 w, busy := true, err := .ok, count := 0 }) ∧
      (∀ v, v < 2 ^ s.params.lenW →
        hostAct (.writeReg 2 v) s = .next { s with ilen := v } ∧
        hostAct (.writeReg 3 v) s = .next { s with ocap := v }) ∧
      (∀ v, hostAct (.writeReg 1 v) s = .next s ∧ hostAct (.writeReg 4 v) s = .next s) ∧
      (∀ i b, i < s.params.inSize → b ≤ 255 →
        ∃ t, hostAct (.writeIn i b) s = .next t ∧ t = { s with inBuf := t.inBuf } ∧
          readIn t i = BitVec.ofNat 8 b ∧ ∀ x, x ≠ i → readIn t x = readIn s x) ∧
      (∀ i b, i < s.params.outSize → b ≤ 255 →
        ∃ t, hostAct (.writeOut i b) s = .next t ∧ t = { s with outBuf := t.outBuf } ∧
          readOut t i = BitVec.ofNat 8 b ∧ ∀ x, x ≠ i → readOut t x = readOut s x) ∧
      ∀ i, i < s.params.outSize → hostAct (.readOut i) s =
        .next { s with returned := s.returned ++ [.outByte i (readOut s i)] }) ∧
    -- busy
    (s.busy = true →
      (∀ r v, HostAction.admitted s.params (.writeReg r v) = true → hostAct (.writeReg r v) s = .next s) ∧
      (∀ i b, i < s.params.inSize → b ≤ 255 → hostAct (.writeIn i b) s = .next s) ∧
      (∀ i b, i < s.params.outSize → b ≤ 255 → hostAct (.writeOut i b) s = .next s) ∧
      (Inv s → (statusWord s).toNat = 0x80 ∧ s.count = 0) ∧
      ∀ i, i < s.params.outSize → ∃ b, hostAct (.readOut i) s =
        .next { s with draws := s.draws + 1, returned := s.returned ++ [.outByte i b] })

/-- 10_state.md R7: the layout of STATUS, its codes, that a write leaves it, that issue sets BUSY and clears
ERR, and that completion clears BUSY and sets ERR to the outcome of the latched command: what `exec`
leaves there, `Illegal` for a reserved word. -/
def Obligations.StatusRegister : Prop :=
  (∀ s : State,
    (statusWord s).getLsbD 7 = s.busy ∧
    (statusWord s).extractLsb' 3 4 = 0 ∧
    (statusWord s).extractLsb' 0 3 = errCode s.err) ∧
  (errCode .ok = 0 ∧ errCode .outputTooShort = 1 ∧ errCode .invalidLength = 2 ∧
    errCode .invalidChar = 3 ∧ errCode .illegal = 4) ∧
  (∀ e : Err, (errCode e).toNat ≤ 4) ∧
  (∀ (s : State) (v : Nat), hostAct (.writeReg 1 v) s = .next s) ∧
  (∀ (s : State) (w : Nat), s.busy = false → w ≤ 255 →
    ∃ t, hostAct (.writeReg 0 w) s = .next t ∧ t.busy = true ∧ t.err = .ok) ∧
  ∀ s : State, s.busy = true → ∃ t, coreTurn s = .next t ∧ t.busy = false ∧
    (∀ i, decodeWord s.latch = .ok i → exec i s = .next t) ∧
    ((∀ i, decodeWord s.latch ≠ .ok i) → t.err = .illegal)

/-- 60_exceptions.md R90: the core's turn always completes the command in progress, legal or not. -/
def Obligations.EveryCommandCompletes : Prop :=
  ∀ s : State, s.busy = true →
    ∃ t, coreTurn s = .next t ∧ t.busy = false ∧ Completed t.err t.count s t ∧
      (t.err = .ok ∨ t.err = .outputTooShort ∨ t.err = .invalidLength ∨ t.err = .invalidChar ∨
        t.err = .illegal)

/-- 10_state.md R17 and 70_reset_and_hazards.md R92, R93: what a reset leaves, idle or busy. That an
unspecified byte is the free value drawn at that reset is the form of notes/assumptions/2.md, under
the instance's number that of notes/assumptions/23.md, and that the host's own side stays is
notes/assumptions/14.md. -/
def Obligations.ResetState : Prop :=
  (∀ s : State, ∃ t, hostAct .reset s = .next t ∧
    t.busy = false ∧ t.err = .ok ∧ statusWord t = 0 ∧ t.ilen = 0 ∧ t.ocap = 0 ∧ t.count = 0 ∧
    t.params = s.params ∧ t.unit = s.unit ∧ t.schedule = s.schedule ∧ t.returned = s.returned ∧
    (∀ x, readIn t x = Config.inAfterReset s.unit (s.resets + 1) x) ∧
    ∀ x, readOut t x = Config.outAfterReset s.unit (s.resets + 1) x) ∧
  State.reset.busy = false ∧ State.reset.err = .ok ∧ statusWord State.reset = 0 ∧
  State.reset.ilen = 0 ∧ State.reset.ocap = 0 ∧ State.reset.count = 0

/-- 20_memory.md R31: instances are independent. -/
def Obligations.InstancesAreIndependent : Prop :=
  ∀ (k : Nat) (ms : List State) (s t : State), ms[k]? = some s → step s = .next t →
    ∃ ms', stepInstance k ms = .next ms' ∧ ms'.length = ms.length ∧ ms'[k]? = some t ∧
      ∀ j, j ≠ k → ms'[j]? = ms[j]?

/-- 20_memory.md R23: `MemRead` and `MemWrite`; a write within OUT keeps its canonical form. -/
def Obligations.MemReadAndMemWrite : Prop :=
  ∀ (s : State) (a : Nat),
    (∀ n, (memReadIn s a n).length = n ∧ ∀ j, j < n → (memReadIn s a n)[j]? = some (readIn s (a + j))) ∧
    ∀ bytes : List Byte,
      (∀ j, j < bytes.length → some (readOut (memWriteOut s a bytes) (a + j)) = bytes[j]?) ∧
      (∀ x, x < a ∨ a + bytes.length ≤ x → readOut (memWriteOut s a bytes) x = readOut s x) ∧
      memWriteOut s a bytes = { s with outBuf := (memWriteOut s a bytes).outBuf } ∧
      (Memory.wf s.params.outSize s.outBuf = true → a + bytes.length ≤ s.params.outSize →
        Memory.wf s.params.outSize (memWriteOut s a bytes).outBuf = true)

/-- A run's next step is refused exactly when it is the turn of a host action that is not admitted,
and it never faults (20_memory.md R28, 60_exceptions.md R90). -/
def Obligations.RefusedExactlyWhenNotAdmitted : Prop :=
  ∀ s : State,
    (∀ a rest, s.schedule = .host a :: rest → a.admitted s.params = false →
      step s = .refused (.hostActionNotAdmitted a)) ∧
    ((∀ a rest, s.schedule = .host a :: rest → a.admitted s.params = true) →
      ∃ t, step s = .next t ∧ t.schedule = s.schedule.tail ∧ t.params = s.params)

/-- The invariant of Safety.lean holds after reset, of every instance. -/
def Obligations.ResetMeetsInv : Prop :=
  Inv State.reset ∧ ∀ (p : Config.Params) (u n : Nat), Inv (State.afterReset p u n)

/-- Every step keeps the invariant: both buffers canonical and within their sizes, the length registers
within LEN_W bits, COUNT within OUT, nothing counted under an error, ERR and COUNT clear while busy. -/
def Obligations.StepKeepsInv : Prop :=
  ∀ s t : State, Inv s → step s = .next t → Inv t

/-- 70_reset_and_hazards.md R97: an issue and the completion after it are one transition to the state
`coreTurn` gives, for every word. -/
def Obligations.IssueThenCompletion : Prop :=
  ∀ (s : State) (w : Nat) (rest : List Event), s.busy = false → w ≤ 255 →
    s.schedule = .host (.writeReg 0 w) :: .core :: rest →
    ∃ t, Host.Core.run Sys2Proof.core 2 s = .next t ∧
      coreTurn { issue (BitVec.ofNat 8 w) s with schedule := rest } = .next t ∧
      t.busy = false ∧ t.schedule = rest

/-- 70_reset_and_hazards.md R95: whatever the host does between issue and completion but reset, the
command in progress is not disturbed: the block ends as if the core had completed it at once. The
schedule is the model's choice (notes/assumptions/5.md). -/
def Obligations.BusyWindowDisturbsNothing : Prop :=
  ∀ (s : State) (acts : List HostAction) (rest : List Event), s.busy = true →
    s.schedule = acts.map Event.host ++ .core :: rest →
    (∀ a ∈ acts, a.admitted s.params = true ∧ isReset a = false) →
    ∃ t u, coreTurn s = .next t ∧ Host.Core.run Sys2Proof.core (acts.length + 1) s = .next u ∧
      SameBlock t u ∧ u.busy = false ∧ u.schedule = rest

/-- 70_reset_and_hazards.md R98, with R93: whatever the finite schedule of admitted events, a run through
it and one step more ends idle, so a command in progress has by then completed or been abandoned by a
reset. The schedule, and that an empty one is the core's turn, is the model's choice
(notes/assumptions/5.md). -/
def Obligations.EveryScheduleEndsIdle : Prop :=
  ∀ s : State, ScheduleAdmitted s →
    ∃ t, Host.Core.run Sys2Proof.core (s.schedule.length + 1) s = .next t ∧
      t.busy = false ∧ t.schedule = []
end

