-- ==== Sys2Proof/Laws/Codec.lean ====
section
/-! SUPPORT. The small lemmas of the codec's functions. -/

namespace Sys2Proof.Machine

theorem isValid_iff (c : Byte) :
    isValid c = true ↔ 0x28 ≤ c.toNat ∧ c.toNat ≤ 0x5B ∨ 0x5D ≤ c.toNat ∧ c.toNat ≤ 0x7D := by
  simp [isValid]

theorem toChar_toNat (d : Digit) : (toChar d).toNat = if d.val ≤ 51 then 0x28 + d.val else 0x29 + d.val := by
  have := d.isLt
  simp only [toChar, BitVec.toNat_ofNat]
  split <;> split <;> omega

theorem toChar_valid (d : Digit) : isValid (toChar d) = true := by
  have := d.isLt
  rw [isValid_iff, toChar_toNat]
  split <;> omega

theorem toDigit?_val {c : Byte} {d : Digit} (h : toDigit? c = some d) :
    isValid c = true ∧ d.val = if c.toNat ≥ 0x5C then c.toNat - 0x28 - 1 else c.toNat - 0x28 := by
  simp only [toDigit?] at h
  split at h
  · cases h; exact ⟨by assumption, rfl⟩
  · cases h

theorem toDigit?_isSome (c : Byte) : (toDigit? c).isSome = isValid c := by
  simp only [toDigit?]
  split <;> simp_all

theorem toDigit?_eq_none (c : Byte) : toDigit? c = none ↔ isValid c = false := by
  rw [← toDigit?_isSome]; simp

/-- A character has the digit `d` exactly when it is the character of `d`. -/
theorem toDigit?_eq_some (c : Byte) (d : Digit) : toDigit? c = some d ↔ c = toChar d := by
  constructor
  · intro h
    obtain ⟨hv, hd⟩ := toDigit?_val h
    rw [isValid_iff] at hv
    apply BitVec.eq_of_toNat_eq
    rw [toChar_toNat, hd]
    split <;> split <;> omega
  · rintro rfl
    obtain ⟨d', hd'⟩ := Option.isSome_iff_exists.mp ((toDigit?_isSome (toChar d)).trans (toChar_valid d))
    obtain ⟨-, hd⟩ := toDigit?_val hd'
    rw [hd', Option.some.injEq]
    apply Fin.ext
    rw [hd, toChar_toNat]
    have := d.isLt
    split <;> split <;> omega

theorem toChar_injective : Function.Injective toChar := fun a b h => by
  have ha := (toDigit?_eq_some (toChar a) a).mpr rfl
  rw [h] at ha
  exact Option.some.inj (ha.symm.trans ((toDigit?_eq_some (toChar b) b).mpr rfl))

/-- The digits of a list are found exactly when the list spells them. -/
theorem digits?_eq_some (cs : List Byte) (ds : List Digit) :
    digits? cs = some ds ↔ cs = ds.map toChar := by
  induction cs generalizing ds with
  | nil => cases ds <;> simp [digits?]
  | cons c cs ih =>
    simp only [digits?]
    cases hc : toDigit? c with
    | none =>
      cases ds with
      | nil => simp
      | cons d ds =>
        have : ¬ c = toChar d := fun h => by rw [(toDigit?_eq_some c d).mpr h] at hc; cases hc
        simp [this]
    | some d =>
      rw [toDigit?_eq_some] at hc
      subst hc
      cases hcs : digits? cs with
      | none =>
        have : ∀ ds : List Digit, cs ≠ ds.map toChar := fun ds h => by rw [(ih ds).mpr h] at hcs; cases hcs
        cases ds <;> simp [this]
      | some es =>
        have := (ih es).mp hcs
        subst this
        cases ds with
        | nil => simp
        | cons d' ds => simp [toChar_injective.eq_iff, List.map_inj_right (fun _ _ h => toChar_injective h)]

theorem digits?_length {cs : List Byte} {ds : List Digit} (h : digits? cs = some ds) :
    ds.length = cs.length := by
  rw [(digits?_eq_some cs ds).mp h, List.length_map]

/-- A list has digits exactly when every character of it is valid. -/
theorem digits?_isSome (cs : List Byte) : (digits? cs).isSome = cs.all isValid := by
  induction cs with
  | nil => rfl
  | cons c cs ih =>
    simp only [digits?, List.all_cons, ← toDigit?_isSome, ← ih]
    cases toDigit? c <;> cases digits? cs <;> rfl

theorem digits?_eq_none (cs : List Byte) : digits? cs = none ↔ ¬ ∀ c ∈ cs, isValid c = true := by
  rw [← List.all_eq_true, ← digits?_isSome]; simp

@[simp] theorem encDigits_length (k v : Nat) : (encDigits k v).length = k := by
  induction k generalizing v with
  | zero => rfl
  | succ k ih => simp [encDigits, ih]

@[simp] theorem encGroup_length (bs : List Byte) : (encGroup bs).length = bs.length + 1 := by
  simp [encGroup]

@[simp] theorem lowBytes_length (k v : Nat) : (lowBytes k v).length = k := by simp [lowBytes]

@[simp] theorem decGroup_length (ds : List Digit) : (decGroup ds).length = ds.length - 1 := by
  simp [decGroup]

theorem lowBytes_getElem (k v j : Nat) (h : j < (lowBytes k v).length) :
    (lowBytes k v)[j] = BitVec.ofNat 8 (v / 256 ^ j % 256) := by simp [lowBytes]

end Sys2Proof.Machine
end

