-- ==== Sys2Proof/Laws/Memory.lean ====
section
/-! SUPPORT. The laws of a buffer's contents: read after write, the canonical form, equal contents are
equal data. -/

namespace Sys2Proof.Machine

@[simp] theorem Memory.get?_nil (x : Nat) : Memory.get? [] x = none := rfl

theorem Memory.get?_set (m : List Host.Cell) (x y : Nat) (v : Byte) :
    Memory.get? (Memory.set m x v) y = if y = x then some v else Memory.get? m y := by
  induction m with
  | nil => simp [Memory.set, Memory.get?]
  | cons c m ih =>
    obtain ⟨a, b⟩ := c
    by_cases h1 : x < a
    · simp [Memory.set, Memory.get?, h1]
    · by_cases h2 : x = a
      · subst h2
        simp only [Memory.set, Nat.lt_irrefl, if_false, if_true, Memory.get?]
        split <;> rfl
      · simp only [Memory.set, h1, h2, if_false, Memory.get?, ih]
        by_cases h3 : y = a
        · subst h3; simp [Ne.symm h2]
        · simp [h3]

/-- A memory that rises from `l` lists no address up to `l`. -/
theorem Memory.get?_of_risingFrom {l : Nat} {m : List Host.Cell}
    (h : Memory.risingFrom (some l) m = true) {x : Nat} (hx : x ≤ l) : Memory.get? m x = none := by
  induction m generalizing l with
  | nil => rfl
  | cons c m ih =>
    obtain ⟨a, b⟩ := c
    simp only [Memory.risingFrom, Bool.and_eq_true, decide_eq_true_eq] at h
    simp only [Memory.get?, if_neg (show ¬ x = a by omega)]
    exact ih h.2 (by omega)

theorem Memory.risingFrom_set (m : List Host.Cell) (l : Option Nat) (x : Nat) (v : Byte)
    (h : Memory.risingFrom l m = true) (hl : ∀ k, l = some k → k < x) :
    Memory.risingFrom l (Memory.set m x v) = true := by
  induction m generalizing l with
  | nil => cases l <;> simp_all [Memory.set, Memory.risingFrom]
  | cons c m ih =>
    obtain ⟨a, b⟩ := c
    have hm : Memory.risingFrom (some a) m = true := by
      cases l <;> simp_all [Memory.risingFrom]
    by_cases h1 : x < a
    · cases l <;> simp_all [Memory.set, Memory.risingFrom]
    · by_cases h2 : x = a
      · subst h2
        cases l <;> simp_all [Memory.set, Memory.risingFrom]
      · have := ih (some a) hm (by intro k hk; cases hk; omega)
        simp only [Memory.set, if_neg h1, if_neg h2]
        cases l <;> simp_all [Memory.risingFrom]

theorem Memory.all_set (m : List Host.Cell) (p : Host.Cell → Bool) (x : Nat) (v : Byte)
    (h : m.all p = true) (hx : p (x, v) = true) : (Memory.set m x v).all p = true := by
  induction m with
  | nil => simp [Memory.set, hx]
  | cons c m ih =>
    obtain ⟨a, b⟩ := c
    simp only [List.all_cons, Bool.and_eq_true] at h
    simp only [Memory.set]
    split
    · simp [h.1, h.2, hx]
    · split
      · simp [h.2, hx]
      · simp [h.1, ih h.2]

/-- The empty memory, a buffer's contents right after reset, is canonical. -/
@[simp] theorem Memory.wf_nil (size : Nat) : Memory.wf size [] = true := rfl

/-- Writing a byte the buffer has keeps the canonical form. -/
theorem Memory.wf_set {size : Nat} {m : List Host.Cell} {x : Nat} (v : Byte)
    (h : Memory.wf size m = true) (hx : x < size) : Memory.wf size (Memory.set m x v) = true := by
  simp only [Memory.wf, Bool.and_eq_true] at h ⊢
  exact ⟨Memory.risingFrom_set m none x v h.1 (by simp), Memory.all_set m _ x v h.2 (by simpa using hx)⟩

theorem Memory.ext_of_rising {l : Option Nat} {m₁ m₂ : List Host.Cell}
    (h₁ : Memory.risingFrom l m₁ = true) (h₂ : Memory.risingFrom l m₂ = true)
    (h : ∀ x, Memory.get? m₁ x = Memory.get? m₂ x) : m₁ = m₂ := by
  have tail : ∀ {l : Option Nat} {a : Nat} {b : Byte} {m : List Host.Cell},
      Memory.risingFrom l ((a, b) :: m) = true → Memory.risingFrom (some a) m = true := by
    intro l a b m h; cases l <;> simp_all [Memory.risingFrom]
  induction m₁ generalizing l m₂ with
  | nil =>
    cases m₂ with
    | nil => rfl
    | cons c m =>
      obtain ⟨a, b⟩ := c
      have := h a
      simp [Memory.get?] at this
  | cons c₁ m₁ ih =>
    obtain ⟨a₁, b₁⟩ := c₁
    cases m₂ with
    | nil =>
      have := h a₁
      simp [Memory.get?] at this
    | cons c₂ m₂ =>
      obtain ⟨a₂, b₂⟩ := c₂
      have t₁ := tail h₁
      have t₂ := tail h₂
      have ha : a₁ = a₂ := by
        rcases Nat.lt_trichotomy a₁ a₂ with hlt | heq | hgt
        · have := h a₁
          simp only [Memory.get?, if_true, if_neg (show ¬ a₁ = a₂ by omega),
            Memory.get?_of_risingFrom t₂ (Nat.le_of_lt hlt)] at this
          cases this
        · exact heq
        · have := h a₂
          simp only [Memory.get?, if_true, if_neg (show ¬ a₂ = a₁ by omega),
            Memory.get?_of_risingFrom t₁ (Nat.le_of_lt hgt)] at this
          cases this
      subst ha
      have hb := h a₁
      simp only [Memory.get?, if_true, Option.some.injEq] at hb
      subst hb
      congr 1
      refine ih t₁ t₂ fun x => ?_
      by_cases hx : x = a₁
      · subst hx
        rw [Memory.get?_of_risingFrom t₁ (Nat.le_refl _), Memory.get?_of_risingFrom t₂ (Nat.le_refl _)]
      · have := h x
        simpa only [Memory.get?, if_neg hx] using this

/-- Equal contents in canonical form are equal data. -/
theorem Memory.ext {size : Nat} {m₁ m₂ : List Host.Cell} (h₁ : Memory.wf size m₁ = true)
    (h₂ : Memory.wf size m₂ = true) (h : ∀ x, Memory.get? m₁ x = Memory.get? m₂ x) : m₁ = m₂ := by
  simp only [Memory.wf, Bool.and_eq_true] at h₁ h₂
  exact Memory.ext_of_rising h₁.1 h₂.1 h

end Sys2Proof.Machine
end

