-- ==== Sys2Proof/Laws/State.lean ====
section
/-! SUPPORT. One lemma per field per update of State, so that no later proof unfolds a record update. -/

namespace Sys2Proof.Machine

@[simp] theorem writeIn_params (s : State) (i : Nat) (b : Byte) : (writeIn s i b).params = s.params := rfl
@[simp] theorem writeIn_inBuf (s : State) (i : Nat) (b : Byte) : (writeIn s i b).inBuf = Memory.set s.inBuf i b := rfl
@[simp] theorem writeIn_outBuf (s : State) (i : Nat) (b : Byte) : (writeIn s i b).outBuf = s.outBuf := rfl
@[simp] theorem writeIn_ilen (s : State) (i : Nat) (b : Byte) : (writeIn s i b).ilen = s.ilen := rfl
@[simp] theorem writeIn_ocap (s : State) (i : Nat) (b : Byte) : (writeIn s i b).ocap = s.ocap := rfl
@[simp] theorem writeIn_count (s : State) (i : Nat) (b : Byte) : (writeIn s i b).count = s.count := rfl
@[simp] theorem writeIn_err (s : State) (i : Nat) (b : Byte) : (writeIn s i b).err = s.err := rfl
@[simp] theorem writeIn_busy (s : State) (i : Nat) (b : Byte) : (writeIn s i b).busy = s.busy := rfl
@[simp] theorem writeIn_latch (s : State) (i : Nat) (b : Byte) : (writeIn s i b).latch = s.latch := rfl
@[simp] theorem writeIn_unit (s : State) (i : Nat) (b : Byte) : (writeIn s i b).unit = s.unit := rfl
@[simp] theorem writeIn_resets (s : State) (i : Nat) (b : Byte) : (writeIn s i b).resets = s.resets := rfl
@[simp] theorem writeIn_draws (s : State) (i : Nat) (b : Byte) : (writeIn s i b).draws = s.draws := rfl
@[simp] theorem writeIn_schedule (s : State) (i : Nat) (b : Byte) : (writeIn s i b).schedule = s.schedule := rfl
@[simp] theorem writeIn_returned (s : State) (i : Nat) (b : Byte) : (writeIn s i b).returned = s.returned := rfl

@[simp] theorem writeOut_params (s : State) (i : Nat) (b : Byte) : (writeOut s i b).params = s.params := rfl
@[simp] theorem writeOut_inBuf (s : State) (i : Nat) (b : Byte) : (writeOut s i b).inBuf = s.inBuf := rfl
@[simp] theorem writeOut_outBuf (s : State) (i : Nat) (b : Byte) : (writeOut s i b).outBuf = Memory.set s.outBuf i b := rfl
@[simp] theorem writeOut_ilen (s : State) (i : Nat) (b : Byte) : (writeOut s i b).ilen = s.ilen := rfl
@[simp] theorem writeOut_ocap (s : State) (i : Nat) (b : Byte) : (writeOut s i b).ocap = s.ocap := rfl
@[simp] theorem writeOut_count (s : State) (i : Nat) (b : Byte) : (writeOut s i b).count = s.count := rfl
@[simp] theorem writeOut_err (s : State) (i : Nat) (b : Byte) : (writeOut s i b).err = s.err := rfl
@[simp] theorem writeOut_busy (s : State) (i : Nat) (b : Byte) : (writeOut s i b).busy = s.busy := rfl
@[simp] theorem writeOut_latch (s : State) (i : Nat) (b : Byte) : (writeOut s i b).latch = s.latch := rfl
@[simp] theorem writeOut_unit (s : State) (i : Nat) (b : Byte) : (writeOut s i b).unit = s.unit := rfl
@[simp] theorem writeOut_resets (s : State) (i : Nat) (b : Byte) : (writeOut s i b).resets = s.resets := rfl
@[simp] theorem writeOut_draws (s : State) (i : Nat) (b : Byte) : (writeOut s i b).draws = s.draws := rfl
@[simp] theorem writeOut_schedule (s : State) (i : Nat) (b : Byte) : (writeOut s i b).schedule = s.schedule := rfl
@[simp] theorem writeOut_returned (s : State) (i : Nat) (b : Byte) : (writeOut s i b).returned = s.returned := rfl

@[simp] theorem issue_params (w : Byte) (s : State) : (issue w s).params = s.params := rfl
@[simp] theorem issue_inBuf (w : Byte) (s : State) : (issue w s).inBuf = s.inBuf := rfl
@[simp] theorem issue_outBuf (w : Byte) (s : State) : (issue w s).outBuf = s.outBuf := rfl
@[simp] theorem issue_ilen (w : Byte) (s : State) : (issue w s).ilen = s.ilen := rfl
@[simp] theorem issue_ocap (w : Byte) (s : State) : (issue w s).ocap = s.ocap := rfl
@[simp] theorem issue_count (w : Byte) (s : State) : (issue w s).count = 0 := rfl
@[simp] theorem issue_err (w : Byte) (s : State) : (issue w s).err = .ok := rfl
@[simp] theorem issue_busy (w : Byte) (s : State) : (issue w s).busy = true := rfl
@[simp] theorem issue_latch (w : Byte) (s : State) : (issue w s).latch = w := rfl
@[simp] theorem issue_unit (w : Byte) (s : State) : (issue w s).unit = s.unit := rfl
@[simp] theorem issue_resets (w : Byte) (s : State) : (issue w s).resets = s.resets := rfl
@[simp] theorem issue_draws (w : Byte) (s : State) : (issue w s).draws = s.draws := rfl
@[simp] theorem issue_schedule (w : Byte) (s : State) : (issue w s).schedule = s.schedule := rfl
@[simp] theorem issue_returned (w : Byte) (s : State) : (issue w s).returned = s.returned := rfl

@[simp] theorem succeed_params (n : Nat) (s : State) : (succeed n s).params = s.params := rfl
@[simp] theorem succeed_inBuf (n : Nat) (s : State) : (succeed n s).inBuf = s.inBuf := rfl
@[simp] theorem succeed_outBuf (n : Nat) (s : State) : (succeed n s).outBuf = s.outBuf := rfl
@[simp] theorem succeed_ilen (n : Nat) (s : State) : (succeed n s).ilen = s.ilen := rfl
@[simp] theorem succeed_ocap (n : Nat) (s : State) : (succeed n s).ocap = s.ocap := rfl
@[simp] theorem succeed_count (n : Nat) (s : State) : (succeed n s).count = n := rfl
@[simp] theorem succeed_err (n : Nat) (s : State) : (succeed n s).err = .ok := rfl
@[simp] theorem succeed_busy (n : Nat) (s : State) : (succeed n s).busy = false := rfl
@[simp] theorem succeed_latch (n : Nat) (s : State) : (succeed n s).latch = s.latch := rfl
@[simp] theorem succeed_unit (n : Nat) (s : State) : (succeed n s).unit = s.unit := rfl
@[simp] theorem succeed_resets (n : Nat) (s : State) : (succeed n s).resets = s.resets := rfl
@[simp] theorem succeed_draws (n : Nat) (s : State) : (succeed n s).draws = s.draws := rfl
@[simp] theorem succeed_schedule (n : Nat) (s : State) : (succeed n s).schedule = s.schedule := rfl
@[simp] theorem succeed_returned (n : Nat) (s : State) : (succeed n s).returned = s.returned := rfl

@[simp] theorem raise_params (e : Err) (s : State) : (raise e s).params = s.params := rfl
@[simp] theorem raise_inBuf (e : Err) (s : State) : (raise e s).inBuf = s.inBuf := rfl
@[simp] theorem raise_outBuf (e : Err) (s : State) : (raise e s).outBuf = s.outBuf := rfl
@[simp] theorem raise_ilen (e : Err) (s : State) : (raise e s).ilen = s.ilen := rfl
@[simp] theorem raise_ocap (e : Err) (s : State) : (raise e s).ocap = s.ocap := rfl
@[simp] theorem raise_count (e : Err) (s : State) : (raise e s).count = 0 := rfl
@[simp] theorem raise_err (e : Err) (s : State) : (raise e s).err = e := rfl
@[simp] theorem raise_busy (e : Err) (s : State) : (raise e s).busy = false := rfl
@[simp] theorem raise_latch (e : Err) (s : State) : (raise e s).latch = s.latch := rfl
@[simp] theorem raise_unit (e : Err) (s : State) : (raise e s).unit = s.unit := rfl
@[simp] theorem raise_resets (e : Err) (s : State) : (raise e s).resets = s.resets := rfl
@[simp] theorem raise_draws (e : Err) (s : State) : (raise e s).draws = s.draws := rfl
@[simp] theorem raise_schedule (e : Err) (s : State) : (raise e s).schedule = s.schedule := rfl
@[simp] theorem raise_returned (e : Err) (s : State) : (raise e s).returned = s.returned := rfl

@[simp] theorem answer_params (r : Returned) (s : State) : (answer r s).params = s.params := rfl
@[simp] theorem answer_inBuf (r : Returned) (s : State) : (answer r s).inBuf = s.inBuf := rfl
@[simp] theorem answer_outBuf (r : Returned) (s : State) : (answer r s).outBuf = s.outBuf := rfl
@[simp] theorem answer_ilen (r : Returned) (s : State) : (answer r s).ilen = s.ilen := rfl
@[simp] theorem answer_ocap (r : Returned) (s : State) : (answer r s).ocap = s.ocap := rfl
@[simp] theorem answer_count (r : Returned) (s : State) : (answer r s).count = s.count := rfl
@[simp] theorem answer_err (r : Returned) (s : State) : (answer r s).err = s.err := rfl
@[simp] theorem answer_busy (r : Returned) (s : State) : (answer r s).busy = s.busy := rfl
@[simp] theorem answer_latch (r : Returned) (s : State) : (answer r s).latch = s.latch := rfl
@[simp] theorem answer_unit (r : Returned) (s : State) : (answer r s).unit = s.unit := rfl
@[simp] theorem answer_resets (r : Returned) (s : State) : (answer r s).resets = s.resets := rfl
@[simp] theorem answer_draws (r : Returned) (s : State) : (answer r s).draws = s.draws := rfl
@[simp] theorem answer_schedule (r : Returned) (s : State) : (answer r s).schedule = s.schedule := rfl
@[simp] theorem answer_returned (r : Returned) (s : State) : (answer r s).returned = s.returned ++ [r] := rfl

@[simp] theorem hostReset_params (s : State) : (hostReset s).params = s.params := rfl
@[simp] theorem hostReset_inBuf (s : State) : (hostReset s).inBuf = [] := rfl
@[simp] theorem hostReset_outBuf (s : State) : (hostReset s).outBuf = [] := rfl
@[simp] theorem hostReset_ilen (s : State) : (hostReset s).ilen = 0 := rfl
@[simp] theorem hostReset_ocap (s : State) : (hostReset s).ocap = 0 := rfl
@[simp] theorem hostReset_count (s : State) : (hostReset s).count = 0 := rfl
@[simp] theorem hostReset_err (s : State) : (hostReset s).err = .ok := rfl
@[simp] theorem hostReset_busy (s : State) : (hostReset s).busy = false := rfl
@[simp] theorem hostReset_latch (s : State) : (hostReset s).latch = Config.latchAfterReset s.unit (s.resets + 1) := rfl
@[simp] theorem hostReset_unit (s : State) : (hostReset s).unit = s.unit := rfl
@[simp] theorem hostReset_resets (s : State) : (hostReset s).resets = s.resets + 1 := rfl
@[simp] theorem hostReset_draws (s : State) : (hostReset s).draws = s.draws := rfl
@[simp] theorem hostReset_schedule (s : State) : (hostReset s).schedule = s.schedule := rfl
@[simp] theorem hostReset_returned (s : State) : (hostReset s).returned = s.returned := rfl

end Sys2Proof.Machine
end

