-- ==== Sys2Proof/Laws/Ops.lean ====
section
/-! SUPPORT. What the shared operations over buffers do, said once each. -/

namespace Sys2Proof.Machine

theorem readOut_writeOut (s : State) (i x : Nat) (b : Byte) :
    readOut (writeOut s i b) x = if x = i then b else readOut s x := by
  simp only [readOut, writeOut_outBuf, writeOut_unit, writeOut_resets, Memory.get?_set]
  split <;> simp

theorem readIn_writeIn (s : State) (i x : Nat) (b : Byte) :
    readIn (writeIn s i b) x = if x = i then b else readIn s x := by
  simp only [readIn, writeIn_inBuf, writeIn_unit, writeIn_resets, Memory.get?_set]
  split <;> simp

@[simp] theorem readIn_writeOut (s : State) (i x : Nat) (b : Byte) :
    readIn (writeOut s i b) x = readIn s x := rfl
@[simp] theorem readOut_writeIn (s : State) (i x : Nat) (b : Byte) :
    readOut (writeIn s i b) x = readOut s x := rfl
@[simp] theorem readIn_succeed (n : Nat) (s : State) (x : Nat) : readIn (succeed n s) x = readIn s x := rfl
@[simp] theorem readOut_succeed (n : Nat) (s : State) (x : Nat) : readOut (succeed n s) x = readOut s x := rfl
@[simp] theorem readIn_raise (e : Err) (s : State) (x : Nat) : readIn (raise e s) x = readIn s x := rfl
@[simp] theorem readOut_raise (e : Err) (s : State) (x : Nat) : readOut (raise e s) x = readOut s x := rfl
@[simp] theorem readIn_issue (w : Byte) (s : State) (x : Nat) : readIn (issue w s) x = readIn s x := rfl
@[simp] theorem readOut_issue (w : Byte) (s : State) (x : Nat) : readOut (issue w s) x = readOut s x := rfl
@[simp] theorem readIn_answer (r : Returned) (s : State) (x : Nat) : readIn (answer r s) x = readIn s x := rfl
@[simp] theorem readOut_answer (r : Returned) (s : State) (x : Nat) : readOut (answer r s) x = readOut s x := rfl
@[simp] theorem readIn_hostReset (s : State) (x : Nat) :
    readIn (hostReset s) x = Config.inAfterReset s.unit (s.resets + 1) x := rfl
@[simp] theorem readOut_hostReset (s : State) (x : Nat) :
    readOut (hostReset s) x = Config.outAfterReset s.unit (s.resets + 1) x := rfl

@[simp] theorem memReadIn_length (s : State) (a n : Nat) : (memReadIn s a n).length = n := by
  simp [memReadIn]

@[simp] theorem memReadIn_getElem (s : State) (a n j : Nat) (h : j < (memReadIn s a n).length) :
    (memReadIn s a n)[j] = readIn s (a + j) := by
  simp [memReadIn]

theorem memReadIn_getElem? (s : State) (a n j : Nat) (h : j < n) :
    (memReadIn s a n)[j]? = some (readIn s (a + j)) := by
  simp [memReadIn, h]

/-- `MemRead` depends on the bytes of its range only. -/
theorem memReadIn_congr {s t : State} {a n : Nat} (h : ∀ j, j < n → readIn s (a + j) = readIn t (a + j)) :
    memReadIn s a n = memReadIn t a n := by
  simp only [memReadIn, List.map_inj_left, List.mem_range]
  exact h

/-- `MemWrite` changes OUT and nothing else. -/
theorem memWriteOut_eq (s : State) (a : Nat) (bytes : List Byte) :
    memWriteOut s a bytes = { s with outBuf := (memWriteOut s a bytes).outBuf } := by
  induction bytes generalizing s a with
  | nil => rfl
  | cons b bs ih => rw [memWriteOut, ih]; rfl

@[simp] theorem memWriteOut_params (s : State) (a : Nat) (bs : List Byte) :
    (memWriteOut s a bs).params = s.params := by rw [memWriteOut_eq]
@[simp] theorem memWriteOut_inBuf (s : State) (a : Nat) (bs : List Byte) :
    (memWriteOut s a bs).inBuf = s.inBuf := by rw [memWriteOut_eq]
@[simp] theorem memWriteOut_ilen (s : State) (a : Nat) (bs : List Byte) :
    (memWriteOut s a bs).ilen = s.ilen := by rw [memWriteOut_eq]
@[simp] theorem memWriteOut_ocap (s : State) (a : Nat) (bs : List Byte) :
    (memWriteOut s a bs).ocap = s.ocap := by rw [memWriteOut_eq]
@[simp] theorem memWriteOut_count (s : State) (a : Nat) (bs : List Byte) :
    (memWriteOut s a bs).count = s.count := by rw [memWriteOut_eq]
@[simp] theorem memWriteOut_err (s : State) (a : Nat) (bs : List Byte) :
    (memWriteOut s a bs).err = s.err := by rw [memWriteOut_eq]
@[simp] theorem memWriteOut_busy (s : State) (a : Nat) (bs : List Byte) :
    (memWriteOut s a bs).busy = s.busy := by rw [memWriteOut_eq]
@[simp] theorem memWriteOut_latch (s : State) (a : Nat) (bs : List Byte) :
    (memWriteOut s a bs).latch = s.latch := by rw [memWriteOut_eq]
@[simp] theorem memWriteOut_unit (s : State) (a : Nat) (bs : List Byte) :
    (memWriteOut s a bs).unit = s.unit := by rw [memWriteOut_eq]
@[simp] theorem memWriteOut_resets (s : State) (a : Nat) (bs : List Byte) :
    (memWriteOut s a bs).resets = s.resets := by rw [memWriteOut_eq]
@[simp] theorem memWriteOut_draws (s : State) (a : Nat) (bs : List Byte) :
    (memWriteOut s a bs).draws = s.draws := by rw [memWriteOut_eq]
@[simp] theorem memWriteOut_schedule (s : State) (a : Nat) (bs : List Byte) :
    (memWriteOut s a bs).schedule = s.schedule := by rw [memWriteOut_eq]
@[simp] theorem memWriteOut_returned (s : State) (a : Nat) (bs : List Byte) :
    (memWriteOut s a bs).returned = s.returned := by rw [memWriteOut_eq]

@[simp] theorem readIn_memWriteOut (s : State) (a : Nat) (bs : List Byte) (x : Nat) :
    readIn (memWriteOut s a bs) x = readIn s x := by simp [readIn]

@[simp] theorem memReadIn_memWriteOut (s : State) (a : Nat) (bs : List Byte) (b n : Nat) :
    memReadIn (memWriteOut s a bs) b n = memReadIn s b n := by simp [memReadIn]

/-- The bytes `MemWrite` names are the list's, every other byte of OUT is as it was. -/
theorem readOut_memWriteOut (s : State) (a : Nat) (bs : List Byte) (x : Nat) :
    readOut (memWriteOut s a bs) x =
      if a ≤ x ∧ x < a + bs.length then bs.getD (x - a) 0 else readOut s x := by
  induction bs generalizing s a with
  | nil => simp [memWriteOut]
  | cons b bs ih =>
    rw [memWriteOut, ih, readOut_writeOut]
    by_cases h1 : a + 1 ≤ x ∧ x < a + 1 + bs.length
    · have h2 : a ≤ x ∧ x < a + (b :: bs).length := by simp; omega
      rw [if_pos h1, if_pos h2, show x - a = (x - (a + 1)) + 1 by omega, List.getD_cons_succ]
    · rw [if_neg h1]
      by_cases h3 : x = a
      · subst h3; simp
      · rw [if_neg h3, if_neg (by simp only [List.length_cons]; omega)]

/-- Byte `j` of the list `MemWrite` wrote. -/
theorem readOut_memWriteOut_at (s : State) (a : Nat) (bs : List Byte) {j : Nat} (hj : j < bs.length) :
    some (readOut (memWriteOut s a bs) (a + j)) = bs[j]? := by
  rw [readOut_memWriteOut, if_pos (by omega), Nat.add_sub_cancel_left, List.getD_eq_getElem?_getD,
    List.getElem?_eq_getElem hj, Option.getD_some]

/-- `MemWrite` within the buffer keeps its canonical form. -/
theorem memWriteOut_wf {size : Nat} (s : State) (a : Nat) (bs : List Byte)
    (h : Memory.wf size s.outBuf = true) (ha : a + bs.length ≤ size) :
    Memory.wf size (memWriteOut s a bs).outBuf = true := by
  induction bs generalizing s a with
  | nil => exact h
  | cons b bs ih =>
    rw [List.length_cons] at ha
    exact ih _ _ (Memory.wf_set b h (by omega)) (by omega)

/-- A failed command: ERR its error, COUNT 0, idle, and nothing else changed. -/
theorem raise_completed (e : Err) (s : State) : Completed e 0 s (raise e s) :=
  ⟨rfl, rfl, rfl, fun _ _ => rfl, ⟨rfl, fun _ => rfl, rfl, rfl⟩, ⟨rfl, rfl, rfl, rfl, rfl⟩⟩

/-- A delivered result: ERR OK, COUNT its length, idle, and nothing else changed but OUT's first bytes. -/
theorem deliver_completed (bs : List Byte) (s : State) :
    Completed .ok bs.length s (deliver bs s) where
  err := rfl
  count := rfl
  idle := rfl
  output x hx := by
    rw [deliver, readOut_succeed, readOut_memWriteOut, if_neg (by omega)]
  operands := ⟨by simp [deliver], by simp [deliver], by simp [deliver], by simp [deliver]⟩
  host := ⟨by simp [deliver], by simp [deliver], by simp [deliver], by simp [deliver], by simp [deliver]⟩

/-- The bytes a delivered result holds. -/
theorem readOut_deliver (bs : List Byte) (s : State) (x : Nat) (hx : x < bs.length) :
    readOut (deliver bs s) x = bs[x] := by
  rw [deliver, readOut_succeed, readOut_memWriteOut, if_pos (by omega)]
  simp [List.getD_eq_getElem?_getD, hx]

@[simp] theorem deliver_latch (bs : List Byte) (s : State) : (deliver bs s).latch = s.latch := by
  simp [deliver]

theorem deliver_wf {size : Nat} (bs : List Byte) (s : State) (h : Memory.wf size s.outBuf = true)
    (hb : bs.length ≤ size) : Memory.wf size (deliver bs s).outBuf = true :=
  memWriteOut_wf s 0 bs h (by omega)

end Sys2Proof.Machine
end

