-- ==== Sys2Proof/Laws/Buffer.lean ====
section
/-! SUPPORT. What the walks of ENCODE and DECODE do, said once each. -/

namespace Sys2Proof.Machine

/-- The walk of ENCODE changes OUT and nothing else. -/
theorem encodeWalk_eq (r q ip op : Nat) (s : State) :
    encodeWalk r q ip op s = { s with outBuf := (encodeWalk r q ip op s).outBuf } := by
  induction q generalizing ip op s with
  | zero =>
    rw [encodeWalk]
    split
    · exact memWriteOut_eq ..
    · rfl
  | succ q ih => rw [encodeWalk, ih, memWriteOut_eq]

/-- The walk of DECODE changes OUT and nothing else. -/
theorem decodeWalk_eq (ds : List Digit) (r q ip op : Nat) (s : State) :
    decodeWalk ds r q ip op s = { s with outBuf := (decodeWalk ds r q ip op s).outBuf } := by
  induction q generalizing ip op s with
  | zero =>
    rw [decodeWalk]
    split
    · exact memWriteOut_eq ..
    · rfl
  | succ q ih => rw [decodeWalk, ih, memWriteOut_eq]

/-- Below its output offset the walk of ENCODE leaves OUT. -/
theorem encodeWalk_below (r q ip op : Nat) (s : State) {x : Nat} (hx : x < op) :
    readOut (encodeWalk r q ip op s) x = readOut s x := by
  induction q generalizing ip op s with
  | zero =>
    rw [encodeWalk]
    split
    · rw [readOut_memWriteOut, if_neg (by omega)]
    · rfl
  | succ q ih => rw [encodeWalk, ih _ _ _ (by omega), readOut_memWriteOut, if_neg (by omega)]

/-- Below its output offset the walk of DECODE leaves OUT. -/
theorem decodeWalk_below (ds : List Digit) (r q ip op : Nat) (s : State) {x : Nat} (hx : x < op) :
    readOut (decodeWalk ds r q ip op s) x = readOut s x := by
  induction q generalizing ip op s with
  | zero =>
    rw [decodeWalk]
    split
    · rw [readOut_memWriteOut, if_neg (by omega)]
    · rfl
  | succ q ih => rw [decodeWalk, ih _ _ _ (by omega), readOut_memWriteOut, if_neg (by omega)]

/-- Above everything it writes the walk of ENCODE leaves OUT. -/
theorem encodeWalk_above (r q ip op : Nat) (s : State) {x : Nat}
    (hx : op + 5 * q + (if r ≠ 0 then r + 1 else 0) ≤ x) :
    readOut (encodeWalk r q ip op s) x = readOut s x := by
  induction q generalizing ip op s with
  | zero =>
    rw [encodeWalk]
    split at hx
    · rw [if_pos ‹_›, readOut_memWriteOut,
        if_neg (by rw [encGroup_length, memReadIn_length]; omega)]
    · rw [if_neg ‹_›]
  | succ q ih =>
    rw [encodeWalk, ih _ _ _ (by omega), readOut_memWriteOut,
      if_neg (by rw [encGroup_length, memReadIn_length]; split at hx <;> omega)]

/-- Above everything it writes the walk of DECODE leaves OUT. -/
theorem decodeWalk_above (ds : List Digit) (r q ip op : Nat) (s : State) {x : Nat}
    (hx : op + 4 * q + (r - 1) ≤ x) :
    readOut (decodeWalk ds r q ip op s) x = readOut s x := by
  induction q generalizing ip op s with
  | zero =>
    rw [decodeWalk]
    split
    · have : ((ds.drop ip).take r).length ≤ r := List.length_take_le ..
      rw [readOut_memWriteOut, if_neg (by rw [decGroup_length]; omega)]
    · rfl
  | succ q ih =>
    have : ((ds.drop ip).take 5).length ≤ 5 := List.length_take_le ..
    rw [decodeWalk, ih _ _ _ (by omega), readOut_memWriteOut,
      if_neg (by rw [decGroup_length]; omega)]

/-- A full group of ENCODE's walk holds the encoding of its four bytes. -/
theorem encodeWalk_group (r q ip op : Nat) (s : State) {g j : Nat} (hg : g < q) (hj : j < 5) :
    some (readOut (encodeWalk r q ip op s) (op + 5 * g + j)) =
      (encGroup (memReadIn s (ip + 4 * g) 4))[j]? := by
  induction q generalizing ip op s g with
  | zero => omega
  | succ q ih =>
    rw [encodeWalk]
    cases g with
    | zero =>
      have hl : j < (encGroup (memReadIn s ip 4)).length := by simpa using hj
      rw [encodeWalk_below _ _ _ _ _ (by omega), Nat.mul_zero, Nat.add_zero, Nat.add_zero]
      exact readOut_memWriteOut_at _ _ _ hl
    | succ g =>
      have := ih (ip + 4) (op + 5) (memWriteOut s op (encGroup (memReadIn s ip 4))) (g := g) (by omega)
      rw [memReadIn_memWriteOut] at this
      rw [show op + 5 * (g + 1) + j = op + 5 + 5 * g + j by omega, this,
        show ip + 4 + 4 * g = ip + 4 * (g + 1) by omega]

/-- The remainder of ENCODE's walk holds the encoding of its `r` bytes. -/
theorem encodeWalk_rest (r q ip op : Nat) (s : State) {j : Nat} (hr : r ≠ 0) (hj : j < r + 1) :
    some (readOut (encodeWalk r q ip op s) (op + 5 * q + j)) =
      (encGroup (memReadIn s (ip + 4 * q) r))[j]? := by
  induction q generalizing ip op s with
  | zero =>
    have hl : j < (encGroup (memReadIn s ip r)).length := by simpa using hj
    rw [encodeWalk, if_pos hr, Nat.mul_zero, Nat.add_zero, Nat.add_zero]
    exact readOut_memWriteOut_at _ _ _ hl
  | succ q ih =>
    have := ih (ip + 4) (op + 5) (memWriteOut s op (encGroup (memReadIn s ip 4)))
    rw [memReadIn_memWriteOut] at this
    rw [encodeWalk, show op + 5 * (q + 1) + j = op + 5 + 5 * q + j by omega, this,
      show ip + 4 + 4 * q = ip + 4 * (q + 1) by omega]

/-- A full group of DECODE's walk holds the decoding of its five digits. -/
theorem decodeWalk_group (ds : List Digit) (r q ip op : Nat) (s : State) {g j : Nat} (hg : g < q)
    (hj : j < 4) (hd : ip + 5 * q ≤ ds.length) :
    some (readOut (decodeWalk ds r q ip op s) (op + 4 * g + j)) =
      (decGroup ((ds.drop (ip + 5 * g)).take 5))[j]? := by
  induction q generalizing ip op s g with
  | zero => omega
  | succ q ih =>
    rw [decodeWalk]
    cases g with
    | zero =>
      have hl : j < (decGroup ((ds.drop ip).take 5)).length := by simp; omega
      rw [decodeWalk_below _ _ _ _ _ _ (by omega), Nat.mul_zero, Nat.add_zero, Nat.add_zero]
      exact readOut_memWriteOut_at _ _ _ hl
    | succ g =>
      rw [show op + 4 * (g + 1) + j = op + 4 + 4 * g + j by omega,
        ih (ip + 5) (op + 4) _ (by omega) (by omega),
        show ip + 5 + 5 * g = ip + 5 * (g + 1) by omega]

/-- The remainder of DECODE's walk holds the decoding of its `r` digits. -/
theorem decodeWalk_rest (ds : List Digit) (r q ip op : Nat) (s : State) {j : Nat} (hr : r ≠ 0)
    (hj : j < r - 1) (hd : ip + 5 * q + r ≤ ds.length) :
    some (readOut (decodeWalk ds r q ip op s) (op + 4 * q + j)) =
      (decGroup ((ds.drop (ip + 5 * q)).take r))[j]? := by
  induction q generalizing ip op s with
  | zero =>
    have hl : j < (decGroup ((ds.drop ip).take r)).length := by simp; omega
    rw [decodeWalk, if_pos hr, Nat.mul_zero, Nat.add_zero, Nat.add_zero]
    exact readOut_memWriteOut_at _ _ _ hl
  | succ q ih =>
    rw [decodeWalk, show op + 4 * (q + 1) + j = op + 4 + 4 * q + j by omega,
      ih (ip + 5) (op + 4) _ (by omega), show ip + 5 + 5 * q = ip + 5 * (q + 1) by omega]

/-- ENCODE's walk within OUT keeps its canonical form. -/
theorem encodeWalk_wf {size : Nat} (r q ip op : Nat) (s : State)
    (h : Memory.wf size s.outBuf = true)
    (ho : op + 5 * q + (if r ≠ 0 then r + 1 else 0) ≤ size) :
    Memory.wf size (encodeWalk r q ip op s).outBuf = true := by
  induction q generalizing ip op s with
  | zero =>
    rw [encodeWalk]
    split at ho
    · rw [if_pos ‹_›]
      exact memWriteOut_wf _ _ _ h (by rw [encGroup_length, memReadIn_length]; omega)
    · rw [if_neg ‹_›]; exact h
  | succ q ih =>
    rw [encodeWalk]
    refine ih _ _ _ (memWriteOut_wf _ _ _ h ?_) (by omega)
    rw [encGroup_length, memReadIn_length]
    split at ho <;> omega

/-- DECODE's walk within OUT keeps its canonical form. -/
theorem decodeWalk_wf {size : Nat} (ds : List Digit) (r q ip op : Nat) (s : State)
    (h : Memory.wf size s.outBuf = true) (ho : op + 4 * q + (r - 1) ≤ size) :
    Memory.wf size (decodeWalk ds r q ip op s).outBuf = true := by
  induction q generalizing ip op s with
  | zero =>
    rw [decodeWalk]
    split
    · have : ((ds.drop ip).take r).length ≤ r := List.length_take_le ..
      exact memWriteOut_wf _ _ _ h (by rw [decGroup_length]; omega)
    · exact h
  | succ q ih =>
    have : ((ds.drop ip).take 5).length ≤ 5 := List.length_take_le ..
    rw [decodeWalk]
    exact ih _ _ _ (memWriteOut_wf _ _ _ h (by rw [decGroup_length]; omega)) (by omega)

end Sys2Proof.Machine
end

