-- ==== Sys2Proof/Laws/PerInstr.lean ====
section
/-! SUPPORT. What holds of every command as syntax, one lemma per constructor. -/

namespace Sys2Proof.Laws

/-- The round trip of one command: its fields are well formed, its word carries exactly those fields,
and the word decodes to it whatever bytes follow (30_encoding.md R37, R38, R41). -/
def RoundTrip.Statement (i : Instr) : Prop :=
  i.wellFormed = true ∧ Cmd8.ofWord (encode i) = i.fields ∧
    ∀ rest, decode (encode i :: rest) = .ok (i, rest)

theorem RoundTrip.tochar : RoundTrip.Statement .tochar := ⟨rfl, rfl, fun _ => rfl⟩
theorem RoundTrip.todigit : RoundTrip.Statement .todigit := ⟨rfl, rfl, fun _ => rfl⟩
theorem RoundTrip.enc1 : RoundTrip.Statement .enc1 := ⟨rfl, rfl, fun _ => rfl⟩
theorem RoundTrip.enc2 : RoundTrip.Statement .enc2 := ⟨rfl, rfl, fun _ => rfl⟩
theorem RoundTrip.enc3 : RoundTrip.Statement .enc3 := ⟨rfl, rfl, fun _ => rfl⟩
theorem RoundTrip.enc4 : RoundTrip.Statement .enc4 := ⟨rfl, rfl, fun _ => rfl⟩
theorem RoundTrip.dec2 : RoundTrip.Statement .dec2 := ⟨rfl, rfl, fun _ => rfl⟩
theorem RoundTrip.dec3 : RoundTrip.Statement .dec3 := ⟨rfl, rfl, fun _ => rfl⟩
theorem RoundTrip.dec4 : RoundTrip.Statement .dec4 := ⟨rfl, rfl, fun _ => rfl⟩
theorem RoundTrip.dec5 : RoundTrip.Statement .dec5 := ⟨rfl, rfl, fun _ => rfl⟩
theorem RoundTrip.encode : RoundTrip.Statement .encode := ⟨rfl, rfl, fun _ => rfl⟩
theorem RoundTrip.decode : RoundTrip.Statement .decode := ⟨rfl, rfl, fun _ => rfl⟩

end Sys2Proof.Laws
end

