-- ==== Sys2Proof/Tests/Slice0.lean ====
section
/-! SUPPORT. Tests: ill-formed terms, command words, one step per test with the results that
95_test_vectors.md gives, and a witness for the hypotheses of each obligation. -/

namespace Sys2Proof.Tests

open Sys2Proof Sys2Proof.Machine

/-- The cells that list `bytes` from address `a` on. -/
def cells : Nat → List Nat → Memory
  | _, [] => []
  | a, b :: bs => (a, BitVec.ofNat 8 b) :: cells (a + 1) bs

/-- The reference instance with IN, ILEN and OCAP given and twenty sentinels EE in OUT
(95_test_vectors.md section 1). -/
def machine (input : List Nat) (ilen ocap : Nat) : State :=
  { State.reset with
    inBuf := cells 0 input, outBuf := cells 0 (List.replicate 20 0xEE), ilen := ilen, ocap := ocap }

/-- ERR, COUNT and the first `n` bytes of OUT after an outcome that is a next state. -/
def seen (n : Nat) : Host.Outcome State Fault Refusal → Option (Err × Nat × List Byte)
  | .next t => some (t.err, t.count, (List.range n).map (readOut t))
  | .fault _ => none
  | .refused _ => none

/-- Whether an outcome is the refusal of the host action `a`. -/
def refusedAction (a : HostAction) : Host.Outcome State Fault Refusal → Bool
  | .refused r => r == .hostActionNotAdmitted a
  | .next _ => false
  | .fault _ => false

/-- What the last read of an outcome's state returned. -/
def lastRead : Host.Outcome State Fault Refusal → Option Returned
  | .next t => t.returned.getLast?
  | .fault _ => none
  | .refused _ => none

/-! ### Well-formedness: each check refuses an ill-formed term -/

theorem test_reserved_bits_refused :
    (Cmd8.mk 1 1 0).wellFormed = false ∧ (Cmd8.mk 2 1 0).wellFormed = false := by decide

theorem test_function_refused :
    (Cmd8.mk 0 0 0).wellFormed = false ∧ (Cmd8.mk 0 7 0).wellFormed = false := by decide

theorem test_size_refused :
    (Cmd8.mk 0 1 1).wellFormed = false ∧ (Cmd8.mk 0 3 0).wellFormed = false ∧
    (Cmd8.mk 0 3 5).wellFormed = false ∧ (Cmd8.mk 0 4 1).wellFormed = false ∧
    (Cmd8.mk 0 4 6).wellFormed = false := by decide

/-- The twelve field triples of 30_encoding.md R38 are the only well-formed ones. -/
theorem test_well_formed_fields_are_twelve :
    ((List.range 256).filter fun n => (Cmd8.ofWord (BitVec.ofNat 8 n)).wellFormed).length = 12 := by
  decide +kernel

/-- 20_memory.md R28: register index, buffer index, byte and length at and beyond their ends. -/
theorem test_host_actions_admitted :
    HostAction.admitted .reference (.writeReg 5 0) = false ∧
    HostAction.admitted .reference (.writeReg 0 256) = false ∧
    HostAction.admitted .reference (.writeReg 0 255) = true ∧
    HostAction.admitted .reference (.writeReg 2 65536) = false ∧
    HostAction.admitted .reference (.writeReg 3 65535) = true ∧
    HostAction.admitted .reference (.readReg 5) = false ∧
    HostAction.admitted .reference (.writeIn 256 0) = false ∧
    HostAction.admitted .reference (.writeIn 255 256) = false ∧
    HostAction.admitted .reference (.readIn 256) = false ∧
    HostAction.admitted .reference (.writeOut 256 0) = false ∧
    HostAction.admitted .reference (.writeOut 0 256) = false ∧
    HostAction.admitted .reference (.readOut 256) = false := by decide

theorem test_event_admitted :
    Event.admitted .reference (.host (.readReg 5)) = false ∧ Event.admitted .reference .core = true := by
  decide

/-! ### Command words, written out as rsvd, fn, n (30_encoding.md R37, R38) -/

theorem test_decode_alphabet_words :
    decodeWord 0b00_001_000 = .ok .tochar ∧ decodeWord 0b00_010_000 = .ok .todigit := by decide

theorem test_decode_encode_group_words :
    decodeWord 0b00_011_001 = .ok .enc1 ∧ decodeWord 0b00_011_010 = .ok .enc2 ∧
    decodeWord 0b00_011_011 = .ok .enc3 ∧ decodeWord 0b00_011_100 = .ok .enc4 := by decide

theorem test_decode_decode_group_words :
    decodeWord 0b00_100_010 = .ok .dec2 ∧ decodeWord 0b00_100_011 = .ok .dec3 ∧
    decodeWord 0b00_100_100 = .ok .dec4 ∧ decodeWord 0b00_100_101 = .ok .dec5 := by decide

theorem test_decode_buffer_words :
    decodeWord 0b00_101_000 = .ok .encode ∧ decodeWord 0b00_110_000 = .ok .decode := by decide

/-- Words of 95_test_vectors.md section 3.7. -/
theorem test_reserved_words :
    decodeWord 0x00 = .error .noSuchFunction ∧ decodeWord 0x3F = .error .noSuchFunction ∧
    decodeWord 0x18 = .error .noSuchSize ∧ decodeWord 0x1D = .error .noSuchSize ∧
    decodeWord 0x21 = .error .noSuchSize ∧ decodeWord 0x26 = .error .noSuchSize ∧
    decodeWord 0x29 = .error .noSuchSize ∧ decodeWord 0x48 = .error .reservedBitSet ∧
    decodeWord 0x88 = .error .reservedBitSet ∧ decodeWord 0xC8 = .error .reservedBitSet := by decide

theorem test_decode_bytes :
    decode [] = .error .noByte ∧ decode [0x1C, 0x30] = .ok (.enc4, [0x30]) := by decide

theorem test_decode_table_word :
    decodeTableWord 8 0x25 = some .dec5 ∧ decodeTableWord 8 0x21 = none := by decide

/-! ### One step per test: the vectors of 95_test_vectors.md section 3 -/

theorem test_tochar_52 : seen 2 (exec .tochar (machine [0x34] 0 0)) = some (.ok, 1, [0x5D, 0xEE]) := by
  decide

theorem test_tochar_85 : seen 2 (exec .tochar (machine [0x55] 0 0)) = some (.illegal, 0, [0xEE, 0xEE]) := by
  decide

theorem test_todigit_5D : seen 2 (exec .todigit (machine [0x5D] 0 0)) = some (.ok, 1, [0x34, 0xEE]) := by
  decide

theorem test_todigit_5C :
    seen 2 (exec .todigit (machine [0x5C] 0 0)) = some (.invalidChar, 0, [0xEE, 0xEE]) := by decide

theorem test_enc1_85 : seen 3 (exec .enc1 (machine [0x55] 0 0)) = some (.ok, 2, [0x28, 0x29, 0xEE]) := by
  decide

theorem test_enc1_FF : seen 3 (exec .enc1 (machine [0xFF] 0 0)) = some (.ok, 2, [0x28, 0x2B, 0xEE]) := by
  decide

theorem test_enc2_Ab :
    seen 4 (exec .enc2 (machine [0x41, 0x62] 0 0)) = some (.ok, 3, [0x77, 0x50, 0x2B, 0xEE]) := by decide

theorem test_enc2_00_01 :
    seen 4 (exec .enc2 (machine [0x00, 0x01] 0 0)) = some (.ok, 3, [0x29, 0x2B, 0x28, 0xEE]) := by decide

theorem test_enc3_N85 : seen 5 (exec .enc3 (machine [0x4E, 0x38, 0x35] 0 0)) =
    some (.ok, 4, [0x39, 0x68, 0x62, 0x2D, 0xEE]) := by decide

theorem test_enc4_Abra : seen 6 (exec .enc4 (machine [0x41, 0x62, 0x72, 0x61] 0 0)) =
    some (.ok, 5, [0x4A, 0x6F, 0x33, 0x43, 0x47, 0xEE]) := by decide

theorem test_enc4_unsigned : seen 6 (exec .enc4 (machine [0x00, 0x00, 0x00, 0x80] 0 0)) =
    some (.ok, 5, [0x53, 0x58, 0x6E, 0x33, 0x51, 0xEE]) := by decide

theorem test_dec2_noncanonical :
    seen 2 (exec .dec2 (machine [0x28, 0x2C] 0 0)) = some (.ok, 1, [0x54, 0xEE]) := by decide

theorem test_dec2_second_invalid :
    seen 2 (exec .dec2 (machine [0x5B, 0x5C] 0 0)) = some (.invalidChar, 0, [0xEE, 0xEE]) := by decide

theorem test_dec3_Ab :
    seen 3 (exec .dec3 (machine [0x77, 0x50, 0x2B] 0 0)) = some (.ok, 2, [0x41, 0x62, 0xEE]) := by decide

theorem test_dec4_byte3_dropped : seen 4 (exec .dec4 (machine [0x28, 0x28, 0x28, 0x7B] 0 0)) =
    some (.ok, 3, [0xEA, 0x67, 0x00, 0xEE]) := by decide

theorem test_dec5_largest : seen 5 (exec .dec5 (machine [0x7D, 0x7D, 0x7D, 0x7D, 0x7D] 0 0)) =
    some (.ok, 4, [0xC4, 0x0E, 0x78, 0x08, 0xEE]) := by decide

theorem test_dec5_order : seen 5 (exec .dec5 (machine [0x7B, 0x3F, 0x5F, 0x34, 0x28] 0 0)) =
    some (.ok, 4, [0x17, 0x6F, 0x76, 0x00, 0xEE]) := by decide

/-- "Abracadabra!1", 13 bytes: three full groups and a remainder. -/
theorem test_encode_remainder :
    seen 18 (exec .encode (machine
      [0x41, 0x62, 0x72, 0x61, 0x63, 0x61, 0x64, 0x61, 0x62, 0x72, 0x61, 0x21, 0x31] 13 17)) =
    some (.ok, 17, [0x4A, 0x6F, 0x33, 0x43, 0x47, 0x5E, 0x6D, 0x5F, 0x41, 0x47, 0x2A, 0x4B, 0x77,
      0x66, 0x32, 0x59, 0x28, 0xEE]) := by decide +kernel

/-- OCAP one short, and lengths the buffers do not have. -/
theorem test_encode_errors :
    seen 1 (exec .encode (machine [0x41, 0x62] 2 2)) = some (.outputTooShort, 0, [0xEE]) ∧
    seen 1 (exec .encode (machine [] 257 0)) = some (.illegal, 0, [0xEE]) ∧
    seen 1 (exec .encode (machine [] 0 257)) = some (.illegal, 0, [0xEE]) := by decide

/-- A full group, a short group, both not canonical. -/
theorem test_decode_remainder :
    seen 6 (exec .decode (machine [0x7D, 0x7D, 0x7D, 0x7D, 0x7D, 0x7D, 0x7D] 7 5)) =
    some (.ok, 5, [0xC4, 0x0E, 0x78, 0x08, 0x38, 0xEE]) := by decide +kernel

/-- The error ladder of 95_test_vectors.md P2. -/
theorem test_decode_error_order :
    let text := [0x4A, 0x6F, 0x33, 0x43, 0x47, 0x5C, 0x6D, 0x5F, 0x41, 0x47, 0x2A]
    seen 1 (exec .decode (machine text 261 0)) = some (.illegal, 0, [0xEE]) ∧
    seen 1 (exec .decode (machine text 11 0)) = some (.invalidLength, 0, [0xEE]) ∧
    seen 1 (exec .decode (machine text 10 7)) = some (.outputTooShort, 0, [0xEE]) ∧
    seen 1 (exec .decode (machine text 10 8)) = some (.invalidChar, 0, [0xEE]) := by decide +kernel

/-! ### Steps, host actions, lines -/

theorem test_fetched_word_runs :
    seen 3 (step ((machine [0x54] 0 0).withFetchWord 8 0x19)) = some (.ok, 2, [0x7D, 0x28, 0xEE]) ∧
    seen 1 (step ((machine [0x54] 0 0).withFetchWord 8 0x21)) = some (.illegal, 0, [0xEE]) := by decide

/-- 95_test_vectors.md P5: while busy STATUS reads 0x80 and COUNT 0, and a write is lost. -/
theorem test_busy_window :
    lastRead (hostAct (.readReg 1) (issue 0x28 (machine [] 4 5))) = some (.reg 1 0x80) ∧
    lastRead (hostAct (.readReg 4) (issue 0x28 (machine [] 4 5))) = some (.reg 4 0) ∧
    lastRead (hostAct (.readReg 3) (issue 0x28 (machine [] 4 5))) = some (.reg 3 5) ∧
    hostAct (.writeReg 3 0) (issue 0x28 (machine [] 4 5)) = .next (issue 0x28 (machine [] 4 5)) ∧
    hostAct (.writeReg 0 0) (issue 0x28 (machine [] 4 5)) = .next (issue 0x28 (machine [] 4 5)) :=
  ⟨by decide, by decide, by decide, rfl, rfl⟩

theorem test_register_reads :
    lastRead (hostAct (.readReg 0) (machine [] 4 5)) = some (.reg 0 0) ∧
    lastRead (hostAct (.readReg 1) (raise .invalidChar (machine [] 4 5))) = some (.reg 1 3) ∧
    lastRead (hostAct (.readOut 0) (machine [] 4 5)) = some (.outByte 0 0xEE) := by decide

theorem test_action_refused :
    refusedAction (.readReg 5) (hostAct (.readReg 5) (machine [] 0 0)) = true := by decide

/-- 30_encoding.md R42. -/
theorem test_encode_call_expands :
    expandLine (.encodeCall ['A', 'b'] 3 0) =
      [.host (.writeIn 0 0x41), .host (.writeIn 1 0x62), .host (.writeReg 2 2), .host (.writeReg 3 3),
        .host (.writeReg 0 0x28), .core, .host (.readReg 1), .host (.readReg 1),
        .host (.readReg 4)] := by decide

theorem test_lines_expand :
    expandProgram [.wrout 5 [0x11], .rdin 2 2, .cmd .dec5, .rdCount, .reset] =
      [.host (.writeOut 5 0x11), .host (.readIn 2), .host (.readIn 3), .host (.writeReg 0 0x25),
        .host (.readReg 4), .host .reset] := by decide

/-- A command that completes before the host's next line, and one that completes after it
(95_test_vectors.md P5). -/
theorem test_completion_is_placed :
    expandProgram [.cmd .enc1, .completes, .rdCount] =
      [.host (.writeReg 0 0x19), .core, .host (.readReg 4)] ∧
    expandProgram [.cmd .enc1, .rdCount, .wait 0] =
      [.host (.writeReg 0 0x19), .host (.readReg 4), .core, .host (.readReg 1)] := by decide

/-- Setting bytes keeps a buffer's addresses rising. -/
theorem test_memory_form :
    (Memory.set (Memory.set [(3, 7)] 5 1) 0 2) = [(0, 2), (3, 7), (5, 1)] ∧
    Memory.wf 6 [(0, 2), (3, 7), (5, 1)] = true ∧ Memory.wf 5 [(0, 2), (5, 1)] = false ∧
    Memory.wf 6 [(3, 7), (3, 8)] = false := by decide

/-! ### Witnesses: a state and operands that meet the hypotheses of each obligation, at the ends of
their ranges -/

theorem witness_AlphabetIsTheTwoRanges : (0x80 : Byte).getLsbD 7 = true := by decide

theorem witness_ToCharClosesTheGap :
    (51 : Digit).val ≤ 51 ∧ 52 ≤ (52 : Digit).val ∧ 84 < 85 := by decide

theorem witness_ToDigitOnValidBytesOnly :
    isValid 0x28 = true ∧ isValid 0x7D = true ∧ isValid 0x5C = false := by decide

theorem witness_AlphabetBijection :
    isValid 0x5D = true ∧ (51 : Digit) < 52 ∧
    toDigit? 0x5B = some 51 ∧ toDigit? 0x5D = some 52 ∧ (0x5B : Byte).toNat < (0x5D : Byte).toNat := by
  decide

theorem witness_EncodedGroupDigits :
    1 ≤ [(0xFF : Byte)].length ∧ [(0xFF : Byte), 0, 0, 0x80].length ≤ 4 ∧
    4 ≤ [(0xFF : Byte), 0, 0, 0x80].length := by decide

theorem witness_EncodedGroupLosesNothing :
    1 ≤ [(0 : Byte), 0].length ∧ [(0 : Byte), 0].length ≤ 4 ∧ encGroup [0, 0] = encGroup [0, 0] := by
  decide

theorem witness_EncodedGroupLastCharacter :
    [(0xFF : Byte)].length = 1 ∧ [(0xFF : Byte), 0xFF].length = 2 ∧
    [(0xFF : Byte), 0xFF, 0xFF].length = 3 ∧ [(0xFF : Byte), 0xFF, 0xFF, 0xFF].length = 4 := by decide

theorem witness_DecodedGroupValue :
    2 ≤ [(84 : Digit), 84].length ∧ [(84 : Digit), 84, 84, 84].length ≤ 4 ∧
    [(84 : Digit), 84, 84, 84, 84].length ≤ 5 := by decide

theorem witness_DecodedGroupBytes :
    2 ≤ [(84 : Digit), 84].length ∧ [(84 : Digit), 84, 84, 84, 84].length ≤ 5 ∧
    3 < [(84 : Digit), 84, 84, 84, 84].length - 1 := by decide

/-- The smallest groups that do not fit, of each size (41_encode_group.md R57). -/
theorem witness_OverlargeGroupIsTruncated :
    (digits? (memReadIn (machine [0x29, 0x2B] 0 0) 0 2) = some [1, 3] ∧ 256 ^ 1 ≤ decValue [1, 3]) ∧
    (digits? (memReadIn (machine [0x29, 0x2E, 0x31] 0 0) 0 3) = some [1, 6, 9] ∧
      256 ^ 2 ≤ decValue [1, 6, 9]) ∧
    (digits? (memReadIn (machine [0x29, 0x31, 0x43, 0x43] 0 0) 0 4) = some [1, 9, 27, 27] ∧
      256 ^ 3 ≤ decValue [1, 9, 27, 27]) ∧
    (digits? (memReadIn (machine [0x29, 0x34, 0x5F, 0x3F, 0x7B] 0 0) 0 5) = some [1, 12, 54, 23, 82] ∧
      256 ^ 4 ≤ decValue [1, 12, 54, 23, 82]) := by decide

theorem witness_GroupRoundTrip :
    1 ≤ [(0 : Byte)].length ∧ [(0 : Byte), 0, 0, 0].length ≤ 4 ∧
    2 ≤ [(0x28 : Byte), 0x2B].length ∧ digits? [0x28, 0x2B] = some [0, 3] ∧
    digits? [0x29, 0x2B] = some [1, 3] := by decide

theorem witness_TocharResult :
    (readIn (machine [84] 0 0) 0).toNat ≤ 84 ∧ 84 < (readIn (machine [85] 0 0) 0).toNat := by decide

theorem witness_TodigitResult :
    toDigit? (readIn (machine [0x7D] 0 0) 0) = some 84 ∧ isValid (readIn (machine [0x7E] 0 0) 0) = false := by
  decide

theorem witness_Enc1Result : 255 = (readIn (machine [0xFF] 0 0) 0).toNat := by decide

theorem witness_Enc2Result :
    65535 = (readIn (machine [0xFF, 0xFF] 0 0) 0).toNat +
      256 * (readIn (machine [0xFF, 0xFF] 0 0) 1).toNat := by decide

theorem witness_Enc3Result :
    16777215 = (readIn (machine [0xFF, 0xFF, 0xFF] 0 0) 0).toNat +
      256 * (readIn (machine [0xFF, 0xFF, 0xFF] 0 0) 1).toNat +
      65536 * (readIn (machine [0xFF, 0xFF, 0xFF] 0 0) 2).toNat ∧
    1 ≤ [(0xFF : Byte)].length ∧ [(0xFF : Byte)].length + 3 = 4 := by decide

theorem witness_Enc4Result :
    4294967295 = (readIn (machine [0xFF, 0xFF, 0xFF, 0xFF] 0 0) 0).toNat +
      256 * (readIn (machine [0xFF, 0xFF, 0xFF, 0xFF] 0 0) 1).toNat +
      65536 * (readIn (machine [0xFF, 0xFF, 0xFF, 0xFF] 0 0) 2).toNat +
      16777216 * (readIn (machine [0xFF, 0xFF, 0xFF, 0xFF] 0 0) 3).toNat := by decide

/-- All characters of the top digit, and the last of a group invalid. -/
theorem witness_Dec2Result :
    (∀ x, x < 2 → toDigit? (readIn (machine [0x7D, 0x7D] 0 0) x) = some 84) ∧
    isValid (readIn (machine [0x5B, 0x5C] 0 0) 1) = false := by decide

theorem witness_Dec3Result :
    (∀ x, x < 3 → toDigit? (readIn (machine [0x7D, 0x7D, 0x7D] 0 0) x) = some 84) ∧
    isValid (readIn (machine [0x28, 0x28, 0x7E] 0 0) 2) = false := by decide

theorem witness_Dec4Result :
    (∀ x, x < 4 → toDigit? (readIn (machine [0x7D, 0x7D, 0x7D, 0x7D] 0 0) x) = some 84) ∧
    isValid (readIn (machine [0x28, 0x28, 0x28, 0x80] 0 0) 3) = false := by decide

theorem witness_Dec5Result :
    (∀ x, x < 5 → toDigit? (readIn (machine [0x7D, 0x7D, 0x7D, 0x7D, 0x7D] 0 0) x) = some 84) ∧
    isValid (readIn (machine [0x4A, 0x6F, 0x33, 0x43, 0x5C] 0 0) 4) = false := by decide

theorem witness_EncodedLength : 0 ≤ 3 ∧ 3 ≤ 3 ∧ encLen 13 = 17 ∧ encLen 256 = 320 := by decide

theorem witness_DecodedLength : 0 ≤ 4 ∧ 4 ≤ 4 ∧ decLen 17 = 13 ∧ decLen 80 = 64 := by decide

theorem witness_LengthsInvert : 0 % 5 ≠ 1 ∧ 17 % 5 ≠ 1 := by decide

/-- Each clause at its boundary: 257 and 256, one below the needed capacity and exactly it. -/
theorem witness_EncodeChecksInOrder :
    ((machine [] 257 0).ilen > (machine [] 257 0).params.inSize) ∧
    ((machine [] 0 257).ocap > (machine [] 0 257).params.outSize) ∧
    ((machine [] 256 256).ilen ≤ (machine [] 256 256).params.inSize ∧
      (machine [] 256 256).ocap ≤ (machine [] 256 256).params.outSize ∧
      (machine [] 256 256).ocap < encLen (machine [] 256 256).ilen) ∧
    ((machine [] 204 255).ilen ≤ (machine [] 204 255).params.inSize ∧
      (machine [] 204 255).ocap ≤ (machine [] 204 255).params.outSize ∧
      encLen (machine [] 204 255).ilen ≤ (machine [] 204 255).ocap) := by decide

theorem witness_EncodeWritesTheGroups :
    (machine [] 5 7).ilen ≤ (machine [] 5 7).params.inSize ∧
    (machine [] 5 7).ocap ≤ (machine [] 5 7).params.outSize ∧
    encLen (machine [] 5 7).ilen ≤ (machine [] 5 7).ocap ∧
    0 < (machine [] 5 7).ilen / 4 ∧ (machine [] 5 7).ilen % 4 ≠ 0 := by decide

/-- The ladder of 95_test_vectors.md P2, one state per clause. -/
theorem witness_DecodeChecksInOrder :
    ((machine [] 257 0).ilen > (machine [] 257 0).params.inSize) ∧
    ((machine [] 256 256).ilen ≤ (machine [] 256 256).params.inSize ∧
      (machine [] 256 256).ocap ≤ (machine [] 256 256).params.outSize ∧
      (machine [] 256 256).ilen % 5 = 1) ∧
    ((machine [] 2 0).ilen % 5 ≠ 1 ∧ (machine [] 2 0).ocap < decLen (machine [] 2 0).ilen) ∧
    ((machine [0x59, 0x7E] 2 1).ilen % 5 ≠ 1 ∧
      decLen (machine [0x59, 0x7E] 2 1).ilen ≤ (machine [0x59, 0x7E] 2 1).ocap ∧
      isValid (readIn (machine [0x59, 0x7E] 2 1) 1) = false) ∧
    (decLen (machine [0x7D, 0x28] 2 1).ilen ≤ (machine [0x7D, 0x28] 2 1).ocap ∧
      ∀ x, x < (machine [0x7D, 0x28] 2 1).ilen → isValid (readIn (machine [0x7D, 0x28] 2 1) x) = true) := by
  decide

theorem witness_DecodeWritesTheGroups :
    let s := machine [0x32, 0x65, 0x5A, 0x40, 0x29, 0x2D, 0x28] 7 5
    s.ilen ≤ s.params.inSize ∧ s.ocap ≤ s.params.outSize ∧ s.ilen % 5 ≠ 1 ∧ decLen s.ilen ≤ s.ocap ∧
    (∀ x, x < s.ilen → isValid (readIn s x) = true) ∧ 0 < s.ilen / 5 ∧ s.ilen % 5 ≠ 0 := by decide

/-- What ENCODE wrote for the byte 84, read back as input. -/
theorem witness_BufferRoundTrip :
    let s := machine [0x54] 1 2
    let u := machine [0x7D, 0x28] 2 1
    (s.ilen ≤ s.params.inSize ∧ encLen s.ilen ≤ s.params.outSize ∧ encLen s.ilen ≤ s.params.inSize ∧
      encLen s.ilen ≤ s.ocap ∧ s.ocap ≤ s.params.outSize) ∧
    ∃ t, exec .encode s = .next t ∧ u.params = s.params ∧
      (∀ x, x < t.count → readIn u x = readOut t x) ∧ u.ilen = t.count ∧ s.ilen ≤ u.ocap ∧
      u.ocap ≤ u.params.outSize :=
  ⟨by decide, _, rfl, by decide, by decide, by decide, by decide, by decide⟩

theorem witness_EmptyInputSucceeds :
    (machine [] 0 0).ilen = 0 ∧ (machine [] 0 0).ocap ≤ (machine [] 0 0).params.outSize ∧
    (machine [] 0 256).ocap ≤ (machine [] 0 256).params.outSize := by decide

/-- Five bytes cut after the first four. -/
theorem witness_EncodeMayBeCutAtGroups :
    let s := machine [1, 2, 3, 4, 5] 5 7
    let s₁ := machine [1, 2, 3, 4] 4 7
    let s₂ := machine [5] 1 7
    (s.ilen ≤ s.params.inSize ∧ s.ocap ≤ s.params.outSize ∧ encLen s.ilen ≤ s.ocap ∧ 4 * 1 ≤ s.ilen) ∧
    (s₁.params = s.params ∧ s₁.ocap = s.ocap ∧ s₁.ilen = 4 * 1 ∧
      ∀ x, x < 4 * 1 → readIn s₁ x = readIn s x) ∧
    (s₂.params = s.params ∧ s₂.ocap = s.ocap ∧ s₂.ilen = s.ilen - 4 * 1 ∧
      ∀ x, x < s₂.ilen → readIn s₂ x = readIn s (4 * 1 + x)) := by decide

theorem witness_CountNeverTruncates :
    (∃ t, exec .encode (machine [0x54] 1 2) = .next t ∧ t.err = .ok) ∧
    ∃ t, exec .decode (machine [0x7D, 0x28] 2 1) = .next t ∧ t.err = .ok :=
  ⟨⟨_, rfl, by decide⟩, _, rfl, by decide⟩

theorem witness_ErrorsArePrecise :
    ∃ t, exec .todigit (machine [0x5C] 0 0) = .next t ∧ t.err ≠ .ok := ⟨_, rfl, by decide⟩

theorem witness_ErrorTable :
    (∃ t, exec .decode (machine [] 1 0) = .next t) ∧ mayReport .decode .invalidLength = true :=
  ⟨⟨_, rfl⟩, rfl⟩

/-- For every command two states, of instances numbered 0 and 1, that agree on its operands but not on
the rest of IN, nor on ERR and COUNT. -/
theorem witness_CommandsArePure : ∀ i : Instr,
    SameOperands i (machine [0x28, 0x29, 0x2A, 0x2B, 0x2C, 0x5C] 5 7)
      { machine [0x28, 0x29, 0x2A, 0x2B, 0x2C, 0x2D] 5 7 with unit := 1, err := .illegal, count := 3 } := by
  intro i
  cases i <;> exact ⟨by decide, by decide, by decide⟩

theorem witness_EncodeRetryAfterTooShort :
    (machine [0x54] 1 1).ilen ≤ (machine [0x54] 1 1).params.inSize ∧
    (machine [0x54] 1 1).ocap < encLen (machine [0x54] 1 1).ilen ∧
    encLen (machine [0x54] 1 1).ilen ≤ 2 ∧ 2 ≤ (machine [0x54] 1 1).params.outSize := by decide

theorem witness_TheTwelveWords : decodeWord 0x30 = .ok .decode := by decide

theorem witness_DecodeEncodeAgree :
    Instr.wellFormed .enc3 = true ∧ decode [0x1B, 0xFF] = .ok (.enc3, [0xFF]) := by decide

theorem witness_ReservedWordsAreIllegal :
    ((0x80 : Byte).getLsbD 7 = true ∧ (0x40 : Byte).getLsbD 6 = true ∧
      ((0x3F : Byte).extractLsb' 3 3).toNat = 7 ∧
      ((0x1D : Byte).extractLsb' 3 3).toNat = 3 ∧ 4 < ((0x1D : Byte).extractLsb' 0 3).toNat ∧
      ((0x21 : Byte).extractLsb' 3 3).toNat = 4 ∧ ((0x21 : Byte).extractLsb' 0 3).toNat < 2) ∧
    (issue 0x21 (machine [] 0 0)).busy = true ∧
    ∀ i : Instr, encode i ≠ (issue 0x21 (machine [] 0 0)).latch :=
  ⟨by decide, rfl, fun i => by cases i <;> decide⟩

theorem witness_StepRunsTheLatchedCommand :
    let s := (machine [0x54] 0 0).withFetchWord 8 0x19
    s.busy = true ∧ decode [s.latch] = .ok (.enc1, []) ∧ s.schedule = .core :: [] ∧
    (issue 0x19 (machine [0x54] 0 0)).schedule = [] := by decide

theorem witness_StepTakesTheNextEvent :
    (machine [] 0 0).schedule = [] ∧ (machine [] 0 0).busy = false ∧
    ({ machine [] 0 0 with schedule := [.core] } : State).schedule = .core :: [] ∧
    ({ machine [] 0 0 with schedule := [.host .reset] } : State).schedule = .host .reset :: [] := by decide

/-- Each clause at the ends of its range, idle and busy. -/
theorem witness_HostActionTable :
    HostAction.admitted (machine [] 0 0).params (.readReg 5) = false ∧
    255 < (machine [] 0 0).params.inSize ∧ 255 < (machine [] 0 0).params.outSize ∧
    65535 < 2 ^ (machine [] 0 0).params.lenW ∧ (machine [] 0 0).busy = false ∧
    (issue 0x28 (machine [] 0 0)).busy = true ∧ Inv (issue 0x28 (machine [] 0 0)) ∧
    HostAction.admitted (machine [] 0 0).params (.writeReg 0 255) = true := by decide

theorem witness_StatusRegister :
    (machine [] 0 0).busy = false ∧ (255 : Nat) ≤ 255 ∧
    ((issue 0x19 (machine [] 0 0)).busy = true ∧
      decodeWord (issue 0x19 (machine [] 0 0)).latch = .ok .enc1) ∧
    (issue 0xFF (machine [] 0 0)).busy = true ∧
    ∀ i, decodeWord (issue 0xFF (machine [] 0 0)).latch ≠ .ok i :=
  ⟨rfl, by decide, by decide, rfl, fun i => by cases i <;> decide⟩

theorem witness_EveryCommandCompletes : (issue 0xFF (machine [] 0 0)).busy = true := by decide

theorem witness_InstancesAreIndependent :
    [machine [] 0 0, { machine [1] 0 0 with unit := 1 }][1]? = some { machine [1] 0 0 with unit := 1 } ∧
    ∃ t, step { machine [1] 0 0 with unit := 1 } = .next t := ⟨rfl, _, rfl⟩

theorem witness_MemReadAndMemWrite :
    2 < [(1 : Byte), 2, 3].length ∧ 252 + [(1 : Byte), 2, 3].length ≤ 255 ∧
    Memory.wf (machine [] 0 0).params.outSize (machine [] 0 0).outBuf = true ∧
    253 + [(1 : Byte), 2, 3].length ≤ (machine [] 0 0).params.outSize := by decide

theorem witness_RefusedExactlyWhenNotAdmitted :
    HostAction.admitted (machine [] 0 0).params (.readIn 256) = false ∧
    HostAction.admitted (machine [] 0 0).params (.readIn 255) = true := by decide

theorem witness_StepKeepsInv :
    Inv ((machine [0x54] 1 2).withFetchWord 8 0x28) ∧
    ∃ t, step ((machine [0x54] 1 2).withFetchWord 8 0x28) = .next t := ⟨by decide, _, rfl⟩

theorem witness_IssueThenCompletion :
    let s : State := { machine [] 0 0 with schedule := [.host (.writeReg 0 255), .core] }
    s.busy = false ∧ (255 : Nat) ≤ 255 ∧ s.schedule = .host (.writeReg 0 255) :: .core :: [] := by decide

/-- The actions of 95_test_vectors.md P5. -/
theorem witness_BusyWindowDisturbsNothing :
    let acts : List HostAction := [.readReg 1, .writeIn 0 0, .writeReg 3 0, .writeReg 0 0, .readOut 0]
    let s := { issue 0x28 (machine [1, 2, 3, 4] 4 5) with schedule := acts.map Event.host ++ Event.core :: [] }
    s.busy = true ∧ s.schedule = acts.map Event.host ++ Event.core :: [] ∧ ∀ a ∈ acts, a.admitted s.params = true ∧ isReset a = false := by decide

theorem witness_EveryScheduleEndsIdle :
    ScheduleAdmitted { machine [] 0 0 with schedule := [.host (.writeReg 0 0x28), .core, .host .reset] } := by
  intro e he
  fin_cases he <;> decide

end Sys2Proof.Tests
end

section
/-! Noninterference: a command's result is a function of its operands (00_scope.md R2). Two runs are
followed side by side, related by the bytes of OUT written so far. -/

namespace Sys2Proof.Machine

/-! ### Agreement on the output -/

/-- Two states hold the same first `n` bytes of OUT. -/
def SameOutBelow (n : Nat) (s t : State) : Prop := ∀ x, x < n → readOut s x = readOut t x

/-- Two states show the same result of a command: ERR, COUNT and the COUNT bytes written
(10_state.md R7, R10, R13). -/
structure SameResult (s t : State) : Prop where
  err : s.err = t.err
  count : s.count = t.count
  output : SameOutBelow s.count s t

/-- Two outcomes are next states that show the same result. -/
def SameOutcome (o₁ o₂ : Host.Outcome State Fault Refusal) : Prop :=
  ∃ t₁ t₂, o₁ = .next t₁ ∧ o₂ = .next t₂ ∧ SameResult t₁ t₂

theorem SameResult.sameOutcome {s t : State} (h : SameResult s t) : SameOutcome (.next s) (.next t) :=
  ⟨s, t, rfl, rfl, h⟩

theorem sameOutBelow_zero (s t : State) : SameOutBelow 0 s t := fun x hx => absurd hx (Nat.not_lt_zero x)

/-- The same `MemWrite` in two states extends their agreement over the bytes it writes. -/
theorem SameOutBelow.memWriteOut {s t : State} {a : Nat} (h : SameOutBelow a s t) (bs : List Byte) :
    SameOutBelow (a + bs.length) (memWriteOut s a bs) (memWriteOut t a bs) := by
  intro x hx
  rw [readOut_memWriteOut, readOut_memWriteOut]
  by_cases hw : a ≤ x ∧ x < a + bs.length
  · rw [if_pos hw, if_pos hw]
  · rw [if_neg hw, if_neg hw]
    exact h x (by omega)

theorem raise_sameResult (e : Err) (s t : State) : SameResult (raise e s) (raise e t) :=
  ⟨rfl, rfl, sameOutBelow_zero _ _⟩

theorem succeed_sameResult {n : Nat} {s t : State} (h : SameOutBelow n s t) :
    SameResult (succeed n s) (succeed n t) := ⟨rfl, rfl, h⟩

theorem deliver_sameResult (bs : List Byte) (s t : State) : SameResult (deliver bs s) (deliver bs t) := by
  have h := (sameOutBelow_zero s t).memWriteOut bs
  rw [Nat.zero_add] at h
  exact succeed_sameResult h

/-! ### The walks of ENCODE and DECODE side by side -/

/-- ENCODE's output length is what its full groups and its remainder write (43_buffer_ops.md R67). -/
theorem encLen_eq_groups (l : Nat) :
    encLen l = 5 * (l / 4) + (if l % 4 ≠ 0 then l % 4 + 1 else 0) := by
  unfold encLen
  split <;> omega

/-- DECODE's output length is what its full groups and its remainder write (43_buffer_ops.md R68). -/
theorem decLen_eq_groups (l : Nat) : decLen l = 4 * (l / 5) + (l % 5 - 1) := by
  unfold decLen
  omega

/-- ENCODE's walk over the same bytes of IN keeps two states' agreement up to its output offset. -/
theorem encodeWalk_sameOutBelow (r q ip op : Nat) {s t : State}
    (hin : ∀ x, x < ip + 4 * q + r → readIn s x = readIn t x) (hout : SameOutBelow op s t) :
    SameOutBelow (op + 5 * q + (if r ≠ 0 then r + 1 else 0))
      (encodeWalk r q ip op s) (encodeWalk r q ip op t) := by
  induction q generalizing ip op s t with
  | zero =>
    rw [encodeWalk, encodeWalk, memReadIn_congr fun j hj => hin (ip + j) (by omega)]
    split
    · simpa using hout.memWriteOut (encGroup (memReadIn t ip r))
    · simpa using hout
  | succ q ih =>
    rw [encodeWalk, encodeWalk, memReadIn_congr fun j hj => hin (ip + j) (by omega)]
    have hgroup : SameOutBelow (op + 5) (memWriteOut s op (encGroup (memReadIn t ip 4)))
        (memWriteOut t op (encGroup (memReadIn t ip 4))) := by
      simpa using hout.memWriteOut (encGroup (memReadIn t ip 4))
    have hwalk := ih (ip + 4) (op + 5) (fun x hx => by simpa using hin x (by omega)) hgroup
    rwa [show op + 5 * (q + 1) = op + 5 + 5 * q by omega]

/-- DECODE's walk over the same digits keeps two states' agreement up to its output offset. -/
theorem decodeWalk_sameOutBelow (ds : List Digit) (r q ip op : Nat) {s t : State}
    (hds : ip + 5 * q + r ≤ ds.length) (hout : SameOutBelow op s t) :
    SameOutBelow (op + 4 * q + (r - 1)) (decodeWalk ds r q ip op s) (decodeWalk ds r q ip op t) := by
  induction q generalizing ip op s t with
  | zero =>
    have hlen : (decGroup ((ds.drop ip).take r)).length = r - 1 := by simp; omega
    rw [decodeWalk, decodeWalk]
    split
    · simpa only [hlen, Nat.mul_zero, Nat.add_zero] using
        hout.memWriteOut (decGroup ((ds.drop ip).take r))
    · next hr => simpa [not_not.mp hr] using hout
  | succ q ih =>
    have hlen : (decGroup ((ds.drop ip).take 5)).length = 4 := by simp; omega
    have hgroup := hout.memWriteOut (decGroup ((ds.drop ip).take 5))
    rw [hlen] at hgroup
    have hwalk := ih (ip + 5) (op + 4) (by omega) hgroup
    rwa [decodeWalk, decodeWalk, show op + 4 * (q + 1) = op + 4 + 4 * q by omega]

/-! ### The commands on equal operands -/

theorem execTochar_sameOutcome {s t : State} (h : digitOperand s = digitOperand t) :
    SameOutcome (execTochar s) (execTochar t) := by
  unfold execTochar
  rw [h]
  cases charOf? (digitOperand t) with
  | none => exact (raise_sameResult _ _ _).sameOutcome
  | some c => exact (deliver_sameResult _ _ _).sameOutcome

theorem execTodigit_sameOutcome {s t : State} (h : charOperand s = charOperand t) :
    SameOutcome (execTodigit s) (execTodigit t) := by
  unfold execTodigit
  rw [h]
  cases toDigit? (charOperand t) with
  | none => exact (raise_sameResult _ _ _).sameOutcome
  | some d => exact (deliver_sameResult _ _ _).sameOutcome

theorem encodeGroup_sameResult {n : Nat} {s t : State} (h : groupOperand n s = groupOperand n t) :
    SameResult (encodeGroup n s) (encodeGroup n t) := by
  rw [encodeGroup, encodeGroup, h]
  exact deliver_sameResult _ _ _

theorem decodeGroup_sameResult {n : Nat} {s t : State} (h : groupOperand n s = groupOperand n t) :
    SameResult (decodeGroup n s) (decodeGroup n t) := by
  unfold decodeGroup
  rw [h]
  cases digits? (groupOperand n t) with
  | none => exact raise_sameResult _ _ _
  | some ds => exact deliver_sameResult _ _ _

theorem beyondBuffers_congr {s t : State} (hp : s.params = t.params) (hi : s.ilen = t.ilen)
    (ho : s.ocap = t.ocap) : beyondBuffers s = beyondBuffers t := by
  rw [beyondBuffers, beyondBuffers, hp, hi, ho]

theorem encodeChecks_congr {s t : State} (hp : s.params = t.params) (hi : s.ilen = t.ilen)
    (ho : s.ocap = t.ocap) : encodeChecks s = encodeChecks t := by
  rw [encodeChecks, encodeChecks, beyondBuffers_congr hp hi ho, hi, ho]

theorem decodeChecks_congr {s t : State} (hp : s.params = t.params) (hi : s.ilen = t.ilen)
    (ho : s.ocap = t.ocap) (hb : bufferOperand s = bufferOperand t) :
    decodeChecks s = decodeChecks t := by
  rw [decodeChecks, decodeChecks, beyondBuffers_congr hp hi ho, hi, ho, hb]

/-- DECODE's checks pass only with the digits of its whole operand (43_buffer_ops.md R72). -/
theorem digits?_of_decodeChecks {s : State} {ds : List Digit} (h : decodeChecks s = .ok ds) :
    digits? (bufferOperand s) = some ds := by
  unfold decodeChecks at h
  repeat' split at h
  all_goals cases h
  assumption

theorem execEncode_sameOutcome {s t : State} (hp : s.params = t.params) (hi : s.ilen = t.ilen)
    (ho : s.ocap = t.ocap) (hin : ∀ x, x < s.ilen → readIn s x = readIn t x) :
    SameOutcome (execEncode s) (execEncode t) := by
  unfold execEncode
  rw [encodeChecks_congr hp hi ho]
  cases encodeChecks t with
  | some e => exact (raise_sameResult _ _ _).sameOutcome
  | none =>
    have hwalk := encodeWalk_sameOutBelow (s.ilen % 4) (s.ilen / 4) 0 0
      (fun x hx => hin x (by omega)) (sameOutBelow_zero s t)
    rw [Nat.zero_add, ← encLen_eq_groups] at hwalk
    rw [← hi]
    exact (succeed_sameResult hwalk).sameOutcome

theorem execDecode_sameOutcome {s t : State} (hp : s.params = t.params) (hi : s.ilen = t.ilen)
    (ho : s.ocap = t.ocap) (hb : bufferOperand s = bufferOperand t) :
    SameOutcome (execDecode s) (execDecode t) := by
  unfold execDecode
  rw [decodeChecks_congr hp hi ho hb, hi]
  cases hc : decodeChecks t with
  | error e => exact (raise_sameResult _ _ _).sameOutcome
  | ok ds =>
    have hlen : ds.length = t.ilen := by
      rw [digits?_length (digits?_of_decodeChecks hc), bufferOperand, memReadIn_length]
    have hwalk := decodeWalk_sameOutBelow ds (t.ilen % 5) (t.ilen / 5) 0 0
      (by omega) (sameOutBelow_zero s t)
    rw [Nat.zero_add, ← decLen_eq_groups] at hwalk
    exact (succeed_sameResult hwalk).sameOutcome

/-! ### Every command -/

theorem SameOperands.groupOperand_eq {i : Instr} {s t : State} (h : SameOperands i s t) :
    groupOperand (bytesRead s i) s = groupOperand (bytesRead s i) t :=
  memReadIn_congr fun j hj => h.input (0 + j) (by omega)

/-- Equal operands give equal results, command by command. -/
theorem exec_sameOutcome {i : Instr} {s t : State} (h : SameOperands i s t) :
    SameOutcome (exec i s) (exec i t) := by
  have hgroup := h.groupOperand_eq
  cases i with
  | tochar => exact execTochar_sameOutcome (congrArg BitVec.toNat (h.input 0 Nat.one_pos))
  | todigit => exact execTodigit_sameOutcome (h.input 0 Nat.one_pos)
  | enc1 | enc2 | enc3 | enc4 => exact (encodeGroup_sameResult hgroup).sameOutcome
  | dec2 | dec3 | dec4 | dec5 => exact (decodeGroup_sameResult hgroup).sameOutcome
  | encode =>
    obtain ⟨hilen, hocap⟩ := h.lengths rfl
    exact execEncode_sameOutcome h.params hilen hocap h.input
  | decode =>
    obtain ⟨hilen, hocap⟩ := h.lengths rfl
    have hbuffer : bufferOperand s = bufferOperand t := by
      rw [bufferOperand, bufferOperand, ← hilen]
      exact hgroup
    exact execDecode_sameOutcome h.params hilen hocap hbuffer

/-- Settles O38: two runs on equal operands write the same bytes from `OUT[0]` on, group by group. -/
theorem commandsArePure : Obligations.CommandsArePure := by
  intro i s₁ s₂ h
  obtain ⟨t₁, t₂, h₁, h₂, hresult⟩ := exec_sameOutcome h
  exact ⟨t₁, t₂, h₁, h₂, hresult.err, hresult.count, hresult.output⟩

end Sys2Proof.Machine
end

section
/-! The state's invariant (10_state.md R6 to R10, 43_buffer_ops.md R80), the STATUS register and reset.
The one fact everything turns on is `exec_completion`: a command either raises an error, or writes a
result that fits in OUT and counts it. -/

namespace Sys2Proof.Machine

/-! ### What a completion can be -/

/-- `t` is `s` after a completion: an error raised with OUT as it was, or a success that counts no more
bytes than OUT has and has kept OUT's canonical form. -/
inductive Completion (s : State) : State → Prop where
  | failed (e : Err) : Completion s (raise e s)
  | succeeded (n : Nat) (out : Memory) (fits : n ≤ s.params.outSize)
      (keeps : Memory.wf s.params.outSize s.outBuf = true → Memory.wf s.params.outSize out = true) :
      Completion s (succeed n { s with outBuf := out })

theorem Completion.idle {s t : State} (h : Completion s t) : t.busy = false := by
  cases h <;> rfl

/-- OUT has at least five bytes, room for whatever an alphabet or group command delivers
(00_scope.md section 4). -/
theorem deliver_completion {bytes : List Byte} (s : State) (h : bytes.length ≤ 5) :
    Completion s (deliver bytes s) := by
  have fits : bytes.length ≤ s.params.outSize := h.trans s.params.outSize_ge
  rw [deliver, memWriteOut_eq]
  exact .succeeded _ _ fits fun hout => memWriteOut_wf s 0 bytes hout (by omega)

theorem encodeGroup_completion {n : Nat} (s : State) (hn : n ≤ 4) : Completion s (encodeGroup n s) :=
  deliver_completion s (by rw [encGroup_length, groupOperand, memReadIn_length]; omega)

theorem decodeGroup_completion {m : Nat} (s : State) (hm : m ≤ 5) : Completion s (decodeGroup m s) := by
  unfold decodeGroup
  cases hds : digits? (groupOperand m s) with
  | none => exact .failed _
  | some ds =>
    have hlen : ds.length = m := by rw [digits?_length hds, groupOperand, memReadIn_length]
    exact deliver_completion s (by rw [decGroup_length]; omega)

theorem ocap_le_of_not_beyondBuffers {s : State} (h : ¬ beyondBuffers s = true) :
    s.ocap ≤ s.params.outSize := by
  simp only [beyondBuffers, decide_eq_true_eq] at h
  omega

/-- Past ENCODE's checks the whole output fits in OUT (43_buffer_ops.md R69, R80). -/
theorem encLen_le_of_encodeChecks {s : State} (h : encodeChecks s = none) :
    encLen s.ilen ≤ s.params.outSize := by
  unfold encodeChecks at h
  split at h
  · cases h
  · next hbuf =>
    split at h
    · cases h
    · next hcap => exact (Nat.le_of_not_lt hcap).trans (ocap_le_of_not_beyondBuffers hbuf)

/-- Past DECODE's checks the whole output fits in OUT (43_buffer_ops.md R72, R80). -/
theorem decLen_le_of_decodeChecks {s : State} {ds : List Digit} (h : decodeChecks s = .ok ds) :
    decLen s.ilen ≤ s.params.outSize := by
  unfold decodeChecks at h
  split at h
  · cases h
  · next hbuf =>
    split at h
    · cases h
    · split at h
      · cases h
      · next hcap => exact (Nat.le_of_not_lt hcap).trans (ocap_le_of_not_beyondBuffers hbuf)

theorem execEncode_completion (s : State) : ∃ t, execEncode s = .next t ∧ Completion s t := by
  refine ⟨_, rfl, ?_⟩
  cases hc : encodeChecks s with
  | some e => exact .failed e
  | none =>
    have fits := encLen_le_of_encodeChecks hc
    dsimp only
    rw [encodeWalk_eq]
    refine .succeeded _ _ fits fun hout => encodeWalk_wf _ _ _ _ s hout ?_
    rwa [Nat.zero_add, ← encLen_eq_groups]

theorem execDecode_completion (s : State) : ∃ t, execDecode s = .next t ∧ Completion s t := by
  refine ⟨_, rfl, ?_⟩
  cases hc : decodeChecks s with
  | error e => exact .failed e
  | ok ds =>
    have fits := decLen_le_of_decodeChecks hc
    dsimp only
    rw [decodeWalk_eq]
    refine .succeeded _ _ fits fun hout => decodeWalk_wf _ _ _ _ _ s hout ?_
    rwa [Nat.zero_add, ← decLen_eq_groups]

theorem execTochar_completion (s : State) : ∃ t, execTochar s = .next t ∧ Completion s t := by
  refine ⟨_, rfl, ?_⟩
  cases charOf? (digitOperand s) with
  | none => exact .failed _
  | some c => exact deliver_completion s (by simp)

theorem execTodigit_completion (s : State) : ∃ t, execTodigit s = .next t ∧ Completion s t := by
  refine ⟨_, rfl, ?_⟩
  cases toDigit? (charOperand s) with
  | none => exact .failed _
  | some d => exact deliver_completion s (by simp)

/-- Every command completes, by an error or by a result that fits in OUT. -/
theorem exec_completion (i : Instr) (s : State) : ∃ t, exec i s = .next t ∧ Completion s t := by
  cases i with
  | tochar => exact execTochar_completion s
  | todigit => exact execTodigit_completion s
  | enc1 | enc2 | enc3 | enc4 => exact ⟨_, rfl, encodeGroup_completion s (by decide)⟩
  | dec2 | dec3 | dec4 | dec5 => exact ⟨_, rfl, decodeGroup_completion s (by decide)⟩
  | encode => exact execEncode_completion s
  | decode => exact execDecode_completion s

/-! ### The core's turn, by what is latched -/

theorem coreTurn_of_idle {s : State} (hb : s.busy = false) : coreTurn s = .next s := by
  simp [coreTurn, hb]

theorem coreTurn_of_command {s : State} {i : Instr} (hb : s.busy = true)
    (hd : decodeWord s.latch = .ok i) : coreTurn s = exec i s := by
  simp [coreTurn, decode, hb, hd]

theorem coreTurn_of_reserved {s : State} {r : Reject} (hb : s.busy = true)
    (hd : decodeWord s.latch = .error r) : coreTurn s = .next (raise .illegal s) := by
  simp [coreTurn, decode, hb, hd]

theorem coreTurn_completion {s : State} (hb : s.busy = true) :
    ∃ t, coreTurn s = .next t ∧ Completion s t := by
  cases hd : decodeWord s.latch with
  | ok i => rw [coreTurn_of_command hb hd]; exact exec_completion i s
  | error r => exact ⟨_, coreTurn_of_reserved hb hd, .failed _⟩

/-- The core's turn while busy leaves the outcome of the latched command, `Illegal` for a reserved
word (10_state.md R7). -/
theorem coreTurn_outcome {s : State} (hb : s.busy = true) : ∃ t, coreTurn s = .next t ∧
    t.busy = false ∧ (∀ i, decodeWord s.latch = .ok i → exec i s = .next t) ∧
    ((∀ i, decodeWord s.latch ≠ .ok i) → t.err = .illegal) := by
  obtain ⟨t, ht, hcompletion⟩ := coreTurn_completion hb
  refine ⟨t, ht, hcompletion.idle, fun i hi => coreTurn_of_command hb hi ▸ ht, fun hnone => ?_⟩
  cases hd : decodeWord s.latch with
  | ok i => exact absurd hd (hnone i)
  | error r =>
    obtain rfl : raise .illegal s = t := by simpa [coreTurn_of_reserved hb hd] using ht
    rfl

/-! ### The host's actions -/

/-- An action that has a step is admitted, and the step is its effect, busy or idle. -/
theorem hostAct_eq_next {a : HostAction} {s t : State} :
    hostAct a s = .next t ↔
      a.admitted s.params = true ∧ (if s.busy then actBusy a s else actIdle a s) = t := by
  by_cases ha : a.admitted s.params = true <;> simp [hostAct, ha]

theorem hostAct_reset (s : State) : hostAct .reset s = .next (hostReset s) :=
  hostAct_eq_next.mpr ⟨rfl, ite_self _⟩

theorem hostAct_writeStatus (s : State) (v : Nat) : hostAct (.writeReg 1 v) s = .next s :=
  hostAct_eq_next.mpr ⟨rfl, ite_self _⟩

theorem hostAct_writeCmd {s : State} {w : Nat} (hb : s.busy = false) (hw : w ≤ 255) :
    hostAct (.writeReg 0 w) s = .next (issue (BitVec.ofNat 8 w) s) :=
  hostAct_eq_next.mpr ⟨decide_eq_true hw, by rw [hb]; rfl⟩

/-! ### The invariant, operation by operation -/

theorem outSize_lt_two_pow_lenW (p : Config.Params) : p.outSize < 2 ^ p.lenW :=
  (Nat.le_max_right _ _).trans_lt p.lenW_fits

theorem afterReset_inv (p : Config.Params) (u n : Nat) : Inv (State.afterReset p u n) :=
  ⟨rfl, rfl, Nat.two_pow_pos _, Nat.two_pow_pos _, Nat.two_pow_pos _, Nat.zero_le _, fun _ => rfl, nofun⟩

theorem hostReset_inv (s : State) : Inv (hostReset s) :=
  afterReset_inv s.params s.unit (s.resets + 1)

theorem Completion.inv {s t : State} (h : Completion s t) (hs : Inv s) : Inv t := by
  obtain ⟨hin, hout, hilen, hocap, -, -, -, -⟩ := hs
  cases h with
  | failed e =>
    exact ⟨hin, hout, hilen, hocap, Nat.two_pow_pos _, Nat.zero_le _, fun _ => rfl, nofun⟩
  | succeeded n out fits keeps =>
    have hcount : n < 2 ^ s.params.lenW := fits.trans_lt (outSize_lt_two_pow_lenW _)
    exact ⟨hin, keeps hout, hilen, hocap, hcount, fits, fun h => absurd rfl h, nofun⟩

theorem issue_inv (w : Byte) {s : State} (hs : Inv s) : Inv (issue w s) := by
  obtain ⟨hin, hout, hilen, hocap, -, -, -, -⟩ := hs
  exact ⟨hin, hout, hilen, hocap, Nat.two_pow_pos _, Nat.zero_le _, fun _ => rfl, fun _ => ⟨rfl, rfl⟩⟩

theorem writeIn_inv {s : State} {i : Nat} (b : Byte) (hs : Inv s) (hi : i < s.params.inSize) :
    Inv (writeIn s i b) := by
  obtain ⟨hin, hrest⟩ := hs
  exact ⟨Memory.wf_set b hin hi, hrest⟩

theorem writeOut_inv {s : State} {i : Nat} (b : Byte) (hs : Inv s) (hi : i < s.params.outSize) :
    Inv (writeOut s i b) := by
  obtain ⟨hin, hout, hrest⟩ := hs
  exact ⟨hin, Memory.wf_set b hout hi, hrest⟩

/-- The invariant does not speak of the host's side. -/
theorem answer_inv (r : Returned) {s : State} (hs : Inv s) : Inv (answer r s) := hs

theorem regWrite_inv {s : State} {r v : Nat} (hs : Inv s)
    (ha : HostAction.admitted s.params (.writeReg r v) = true) : Inv (regWrite r v s) := by
  unfold regWrite
  split
  · exact issue_inv _ hs
  · obtain ⟨hin, hout, -, hrest⟩ := hs
    exact ⟨hin, hout, of_decide_eq_true ha, hrest⟩
  · obtain ⟨hin, hout, hilen, -, hrest⟩ := hs
    exact ⟨hin, hout, hilen, of_decide_eq_true ha, hrest⟩
  · exact hs

theorem actIdle_inv {a : HostAction} {s : State} (hs : Inv s) (ha : a.admitted s.params = true) :
    Inv (actIdle a s) := by
  cases a with
  | writeReg r v => exact regWrite_inv hs ha
  | readReg r =>
    simp only [actIdle]
    split
    · exact answer_inv _ hs
    · exact hs
  | writeIn i b => exact writeIn_inv _ hs (of_decide_eq_true ha).1
  | writeOut i b => exact writeOut_inv _ hs (of_decide_eq_true ha).1
  | readIn i | readOut i => exact answer_inv _ hs
  | reset => exact hostReset_inv s

theorem actBusy_inv (a : HostAction) {s : State} (hs : Inv s) : Inv (actBusy a s) := by
  cases a with
  | writeReg _ _ | writeIn _ _ | writeOut _ _ => exact hs
  | readReg r =>
    simp only [actBusy]
    split
    · exact answer_inv _ hs
    · exact hs
  | readIn i | readOut i => exact answer_inv _ hs
  | reset => exact hostReset_inv s

theorem hostAct_inv {a : HostAction} {s t : State} (hs : Inv s) (h : hostAct a s = .next t) : Inv t := by
  obtain ⟨ha, rfl⟩ := hostAct_eq_next.mp h
  split
  · exact actBusy_inv a hs
  · exact actIdle_inv hs ha

theorem coreTurn_inv {s t : State} (hs : Inv s) (h : coreTurn s = .next t) : Inv t := by
  cases hb : s.busy with
  | false =>
    obtain rfl : s = t := by simpa [coreTurn_of_idle hb] using h
    exact hs
  | true =>
    obtain ⟨u, hu, hcompletion⟩ := coreTurn_completion hb
    obtain rfl : u = t := by simpa [hu] using h
    exact hcompletion.inv hs

/-! ### The STATUS register -/

/-- The layout of STATUS, whatever the BUSY bit and the code (10_state.md R7). -/
theorem statusWord_fields (s : State) :
    (statusWord s).getLsbD 7 = s.busy ∧
    (statusWord s).extractLsb' 3 4 = 0 ∧
    (statusWord s).extractLsb' 0 3 = errCode s.err := by
  unfold statusWord
  generalize s.busy = b, errCode s.err = c
  revert b c
  decide

theorem errCode_le_four (e : Err) : (errCode e).toNat ≤ 4 := by
  cases e <;> decide

theorem statusWord_of_idle_ok {s : State} (hb : s.busy = false) (he : s.err = .ok) :
    statusWord s = 0 := by
  rw [statusWord, hb, he]
  decide

/-! ### The obligations -/

/-- Settles O54: the schedule's next event is a host action or the core's turn, and each keeps the
invariant. -/
theorem stepKeepsInv : Obligations.StepKeepsInv := by
  intro s t hs h
  unfold step at h
  split at h
  · exact coreTurn_inv hs h
  · next rest _ => exact coreTurn_inv (s := { s with schedule := rest }) hs h
  · next a rest _ => exact hostAct_inv (s := { s with schedule := rest }) hs h

/-- Settles O53: at reset both buffers are empty and every register is clear. -/
theorem resetMeetsInv : Obligations.ResetMeetsInv :=
  ⟨afterReset_inv _ _ _, afterReset_inv⟩

/-- Settles O47: the layout of the word, then its ignored write, the issue and the completion, each an
equation of `hostAct` or `coreTurn`. -/
theorem statusRegister : Obligations.StatusRegister :=
  ⟨statusWord_fields, ⟨rfl, rfl, rfl, rfl, rfl⟩, errCode_le_four,
    hostAct_writeStatus, fun _ _ hb hw => ⟨_, hostAct_writeCmd hb hw, rfl, rfl⟩,
    fun _ hb => coreTurn_outcome hb⟩

/-- Settles O49: `HReset` acts alike idle and busy, and leaves `hostReset`. -/
theorem resetState : Obligations.ResetState := by
  refine ⟨fun s => ⟨hostReset s, hostAct_reset s, rfl, rfl, statusWord_of_idle_ok rfl rfl, rfl, rfl, rfl,
    rfl, rfl, rfl, rfl, readIn_hostReset s, readOut_hostReset s⟩, ?_⟩
  exact ⟨rfl, rfl, statusWord_of_idle_ok rfl rfl, rfl, rfl, rfl⟩

end Sys2Proof.Machine
end

section
/-! The memory and the host's table (20_memory.md): `MemRead` and `MemWrite`, the frame and the
idempotence of every command, the rows of R28, the independence of instances, and which steps are
refused. -/

namespace Sys2Proof.Machine

/-! ### The frame of every command -/

/-- `t` is `s` after a completion that changed at most the first COUNT bytes of OUT, ERR, COUNT and
BUSY (20_memory.md R25); LATCH keeps its word (notes/assumptions/3.md). -/
def Framed (s t : State) : Prop := Completed t.err t.count s t ∧ t.latch = s.latch

theorem raise_framed (e : Err) (s : State) : Framed s (raise e s) := ⟨raise_completed e s, rfl⟩

theorem deliver_framed (bytes : List Byte) (s : State) : Framed s (deliver bytes s) :=
  ⟨deliver_completed bytes s, deliver_latch bytes s⟩

/-- A success that kept OUT from its count on keeps the frame. -/
theorem succeed_framed {n : Nat} {s : State} {out : Memory}
    (hout : ∀ x, n ≤ x → readOut { s with outBuf := out } x = readOut s x) :
    Framed s (succeed n { s with outBuf := out }) :=
  ⟨⟨rfl, rfl, rfl, hout, ⟨rfl, fun _ => rfl, rfl, rfl⟩, ⟨rfl, rfl, rfl, rfl, rfl⟩⟩, rfl⟩

theorem decodeGroup_framed (m : Nat) (s : State) : Framed s (decodeGroup m s) := by
  unfold decodeGroup
  cases digits? (groupOperand m s) with
  | none => exact raise_framed _ _
  | some ds => exact deliver_framed _ _

theorem execTochar_framed (s : State) : ∃ t, execTochar s = .next t ∧ Framed s t := by
  refine ⟨_, rfl, ?_⟩
  cases charOf? (digitOperand s) with
  | none => exact raise_framed _ _
  | some c => exact deliver_framed _ _

theorem execTodigit_framed (s : State) : ∃ t, execTodigit s = .next t ∧ Framed s t := by
  refine ⟨_, rfl, ?_⟩
  cases toDigit? (charOperand s) with
  | none => exact raise_framed _ _
  | some d => exact deliver_framed _ _

theorem execEncode_framed (s : State) : ∃ t, execEncode s = .next t ∧ Framed s t := by
  refine ⟨_, rfl, ?_⟩
  cases encodeChecks s with
  | some e => exact raise_framed e s
  | none =>
    have hout : ∀ x, encLen s.ilen ≤ x →
        readOut (encodeWalk (s.ilen % 4) (s.ilen / 4) 0 0 s) x = readOut s x := fun x hx =>
      encodeWalk_above _ _ _ _ s (by rwa [Nat.zero_add, ← encLen_eq_groups])
    dsimp only
    rw [encodeWalk_eq] at hout ⊢
    exact succeed_framed hout

theorem execDecode_framed (s : State) : ∃ t, execDecode s = .next t ∧ Framed s t := by
  refine ⟨_, rfl, ?_⟩
  cases decodeChecks s with
  | error e => exact raise_framed e s
  | ok ds =>
    have hout : ∀ x, decLen s.ilen ≤ x →
        readOut (decodeWalk ds (s.ilen % 5) (s.ilen / 5) 0 0 s) x = readOut s x := fun x hx =>
      decodeWalk_above _ _ _ _ _ s (by rwa [Nat.zero_add, ← decLen_eq_groups])
    dsimp only
    rw [decodeWalk_eq] at hout ⊢
    exact succeed_framed hout

theorem exec_framed (i : Instr) (s : State) : ∃ t, exec i s = .next t ∧ Framed s t := by
  cases i with
  | tochar => exact execTochar_framed s
  | todigit => exact execTodigit_framed s
  | enc1 | enc2 | enc3 | enc4 => exact ⟨_, rfl, deliver_framed _ s⟩
  | dec2 | dec3 | dec4 | dec5 => exact ⟨_, rfl, decodeGroup_framed _ s⟩
  | encode => exact execEncode_framed s
  | decode => exact execDecode_framed s

/-- Settles O35: every way a command ends (`raise`, `deliver`, the end of a walk) keeps the frame. -/
theorem everyCommandFrame : Obligations.EveryCommandFrame := exec_framed

/-! ### Idempotence -/

/-- What no command writes is all a command depends on. -/
theorem OperandsKept.sameOperands {s t : State} (h : OperandsKept s t) (i : Instr) :
    SameOperands i s t where
  params := h.params.symm
  lengths _ := ⟨h.ilen.symm, h.ocap.symm⟩
  input x _ := (h.input x).symm

/-- Settles O39: the first run keeps the operands (R25), so the second gives the same result (R2) below
COUNT, and from COUNT on the second run keeps OUT. -/
theorem commandsAreIdempotent : Obligations.CommandsAreIdempotent := by
  intro i s
  obtain ⟨t, ht, ⟨hst, -⟩⟩ := exec_framed i s
  obtain ⟨u, hu, ⟨htu, -⟩⟩ := exec_framed i t
  obtain ⟨t', u', ht', hu', hres⟩ := exec_sameOutcome (hst.operands.sameOperands i)
  obtain rfl : t = t' := Host.Outcome.next.inj (ht.symm.trans ht')
  obtain rfl : u = u' := Host.Outcome.next.inj (hu.symm.trans hu')
  refine ⟨t, u, ht, hu, hres.err.symm, hres.count.symm, fun x => ?_⟩
  rcases Nat.lt_or_ge x t.count with hx | hx
  · exact (hres.output x hx).symm
  · exact htu.output x (hres.count ▸ hx)

/-! ### The table of the host's actions (R28): what is admitted -/

theorem admitted_writeReg_iff (p : Config.Params) (r v : Nat) :
    HostAction.admitted p (.writeReg r v) = true ↔
      (r = 0 ∧ v ≤ 255) ∨ ((r = 2 ∨ r = 3) ∧ v < 2 ^ p.lenW) ∨ r = 1 ∨ r = 4 := by
  match r with
  | 0 | 1 | 2 | 3 | 4 => simp [HostAction.admitted]
  | r + 5 => simp [HostAction.admitted]

theorem hostAct_of_not_admitted {a : HostAction} {s : State} (ha : a.admitted s.params = false) :
    hostAct a s = .refused (.hostActionNotAdmitted a) := by
  simp [hostAct, ha]

theorem hostAct_of_idle {a : HostAction} {s : State} (hb : s.busy = false)
    (ha : a.admitted s.params = true) : hostAct a s = .next (actIdle a s) :=
  hostAct_eq_next.mpr ⟨ha, by rw [hb]; rfl⟩

theorem hostAct_of_busy {a : HostAction} {s : State} (hb : s.busy = true)
    (ha : a.admitted s.params = true) : hostAct a s = .next (actBusy a s) :=
  hostAct_eq_next.mpr ⟨ha, by rw [hb]; rfl⟩

/-! ### The table of the host's actions (R28): effects -/

theorem hostAct_readReg {s : State} {r v : Nat} (hr : r ≤ 4) (hv : regRead? s r = some v) :
    hostAct (.readReg r) s = .next (answer (.reg r v) s) :=
  hostAct_eq_next.mpr ⟨decide_eq_true hr, by simp only [actBusy, actIdle, hv, ite_self]⟩

theorem hostAct_readIn {s : State} {i : Nat} (hi : i < s.params.inSize) :
    hostAct (.readIn i) s = .next (answer (.inByte i (readIn s i)) s) :=
  hostAct_eq_next.mpr ⟨decide_eq_true hi, ite_self _⟩

theorem hostAct_writeCount (s : State) (v : Nat) : hostAct (.writeReg 4 v) s = .next s :=
  hostAct_eq_next.mpr ⟨rfl, ite_self _⟩

theorem hostAct_writeIn_idle {s : State} {i b : Nat} (hb : s.busy = false)
    (hi : i < s.params.inSize) (hbyte : b ≤ 255) :
    ∃ t, hostAct (.writeIn i b) s = .next t ∧ t = { s with inBuf := t.inBuf } ∧
      readIn t i = BitVec.ofNat 8 b ∧ ∀ x, x ≠ i → readIn t x = readIn s x := by
  refine ⟨_, hostAct_of_idle hb (decide_eq_true ⟨hi, hbyte⟩), rfl, ?_, fun x hx => ?_⟩
  · exact (readIn_writeIn ..).trans (if_pos rfl)
  · exact (readIn_writeIn ..).trans (if_neg hx)

theorem hostAct_writeOut_idle {s : State} {i b : Nat} (hb : s.busy = false)
    (hi : i < s.params.outSize) (hbyte : b ≤ 255) :
    ∃ t, hostAct (.writeOut i b) s = .next t ∧ t = { s with outBuf := t.outBuf } ∧
      readOut t i = BitVec.ofNat 8 b ∧ ∀ x, x ≠ i → readOut t x = readOut s x := by
  refine ⟨_, hostAct_of_idle hb (decide_eq_true ⟨hi, hbyte⟩), rfl, ?_, fun x hx => ?_⟩
  · exact (readOut_writeOut ..).trans (if_pos rfl)
  · exact (readOut_writeOut ..).trans (if_neg hx)

/-- Under the invariant a busy block shows BUSY alone and counts nothing. -/
theorem Inv.status_of_busy {s : State} (hs : Inv s) (hb : s.busy = true) :
    (statusWord s).toNat = 0x80 ∧ s.count = 0 := by
  obtain ⟨-, -, -, -, -, -, -, hbusy⟩ := hs
  obtain ⟨herr, hcount⟩ := hbusy hb
  refine ⟨?_, hcount⟩
  rw [statusWord, hb, herr]
  decide

/-- Settles O46, row by row. -/
theorem hostActionTable : Obligations.HostActionTable := by
  intro s
  refine ⟨fun _ => hostAct_of_not_admitted, admitted_writeReg_iff s.params,
    fun _ => decide_eq_true_iff, fun _ _ => decide_eq_true_iff, fun _ => decide_eq_true_iff,
    fun _ _ => decide_eq_true_iff, fun _ => decide_eq_true_iff, hostAct_reset s,
    hostAct_readReg (by decide) rfl, hostAct_readReg (by decide) rfl, hostAct_readReg (by decide) rfl,
    hostAct_readReg (by decide) rfl, hostAct_readReg (by decide) rfl, fun _ => hostAct_readIn,
    fun hb => ?idle, fun hb => ?busy⟩
  case idle =>
    exact ⟨fun _ => hostAct_writeCmd hb,
      fun _ hv => ⟨hostAct_of_idle hb (decide_eq_true hv), hostAct_of_idle hb (decide_eq_true hv)⟩,
      fun v => ⟨hostAct_writeStatus s v, hostAct_writeCount s v⟩,
      fun _ _ => hostAct_writeIn_idle hb, fun _ _ => hostAct_writeOut_idle hb,
      fun _ hi => hostAct_of_idle hb (decide_eq_true hi)⟩
  case busy =>
    exact ⟨fun _ _ => hostAct_of_busy hb,
      fun _ _ hi hbyte => hostAct_of_busy hb (decide_eq_true ⟨hi, hbyte⟩),
      fun _ _ hi hbyte => hostAct_of_busy hb (decide_eq_true ⟨hi, hbyte⟩),
      fun hs => hs.status_of_busy hb,
      fun _ hi => ⟨_, hostAct_of_busy hb (decide_eq_true hi)⟩⟩

/-! ### Several instances -/

/-- Settles O50: stepping instance `k` is one `List.set` at `k`. -/
theorem instancesAreIndependent : Obligations.InstancesAreIndependent := by
  intro k ms s t hs ht
  have hk : k < ms.length := (List.getElem?_eq_some_iff.mp hs).1
  exact ⟨ms.set k t, by simp only [stepInstance, hs, ht], List.length_set,
    List.getElem?_set_self hk, fun j hj => List.getElem?_set_ne hj.symm⟩

/-! ### `MemRead` and `MemWrite` -/

/-- Settles O51: the laws of `memReadIn` and `memWriteOut`, put together. -/
theorem memReadAndMemWrite : Obligations.MemReadAndMemWrite := fun s a =>
  ⟨fun n => ⟨memReadIn_length s a n, memReadIn_getElem? s a n⟩,
    fun bytes => ⟨fun _ => readOut_memWriteOut_at s a bytes,
      fun x hx => (readOut_memWriteOut s a bytes x).trans (if_neg (by omega)),
      memWriteOut_eq s a bytes, memWriteOut_wf s a bytes⟩⟩

/-! ### Which steps are refused -/

theorem step_of_nil {s : State} (hs : s.schedule = []) : step s = coreTurn s := by
  simp only [step, hs]

theorem step_of_core {s : State} {rest : List Event} (hs : s.schedule = .core :: rest) :
    step s = coreTurn { s with schedule := rest } := by
  simp only [step, hs]

theorem step_of_host {s : State} {a : HostAction} {rest : List Event}
    (hs : s.schedule = .host a :: rest) : step s = hostAct a { s with schedule := rest } := by
  simp only [step, hs]

/-- The core's turn leaves the events to come and the parameters. -/
theorem coreTurn_keeps_schedule_params (s : State) :
    ∃ t, coreTurn s = .next t ∧ t.schedule = s.schedule ∧ t.params = s.params := by
  cases hb : s.busy with
  | false => exact ⟨s, coreTurn_of_idle hb, rfl, rfl⟩
  | true =>
    obtain ⟨t, ht, hcompletion⟩ := coreTurn_completion hb
    refine ⟨t, ht, ?_⟩
    cases hcompletion <;> exact ⟨rfl, rfl⟩

theorem regWrite_keeps_schedule_params (r v : Nat) (s : State) :
    (regWrite r v s).schedule = s.schedule ∧ (regWrite r v s).params = s.params := by
  unfold regWrite
  split <;> exact ⟨rfl, rfl⟩

theorem actIdle_keeps_schedule_params (a : HostAction) (s : State) :
    (actIdle a s).schedule = s.schedule ∧ (actIdle a s).params = s.params := by
  cases a with
  | writeReg r v => exact regWrite_keeps_schedule_params r v s
  | readReg r => simp only [actIdle]; split <;> exact ⟨rfl, rfl⟩
  | writeIn _ _ | writeOut _ _ | readIn _ | readOut _ | reset => exact ⟨rfl, rfl⟩

theorem actBusy_keeps_schedule_params (a : HostAction) (s : State) :
    (actBusy a s).schedule = s.schedule ∧ (actBusy a s).params = s.params := by
  cases a with
  | readReg r => simp only [actBusy]; split <;> exact ⟨rfl, rfl⟩
  | writeReg _ _ | writeIn _ _ | writeOut _ _ | readIn _ | readOut _ | reset => exact ⟨rfl, rfl⟩

theorem hostAct_keeps_schedule_params {a : HostAction} {s : State} (ha : a.admitted s.params = true) :
    ∃ t, hostAct a s = .next t ∧ t.schedule = s.schedule ∧ t.params = s.params := by
  refine ⟨_, hostAct_eq_next.mpr ⟨ha, rfl⟩, ?_⟩
  split
  · exact actBusy_keeps_schedule_params a s
  · exact actIdle_keeps_schedule_params a s

/-- Settles O52: of the three kinds of next event only a host action can be refused, and an admitted
one is not. -/
theorem refusedExactlyWhenNotAdmitted : Obligations.RefusedExactlyWhenNotAdmitted := by
  intro s
  constructor
  · intro a rest hs ha
    exact (step_of_host hs).trans (hostAct_of_not_admitted (s := { s with schedule := rest }) ha)
  · intro hadmitted
    match hs : s.schedule with
    | [] =>
      rw [step_of_nil hs, List.tail_nil, ← hs]
      exact coreTurn_keeps_schedule_params s
    | .core :: rest =>
      rw [step_of_core hs]
      exact coreTurn_keeps_schedule_params { s with schedule := rest }
    | .host a :: rest =>
      rw [step_of_host hs]
      exact hostAct_keeps_schedule_params (s := { s with schedule := rest }) (hadmitted a rest hs)

end Sys2Proof.Machine
end

section
/-! Command words (30_encoding.md R37 to R41). A word's fields determine it, fields name a command exactly
when they are that command's, and so a word decodes to a command exactly when it is its word. -/

namespace Sys2Proof.Machine

/-! ### Fields and words -/

/-- The three fields are all eight bits of a word (30_encoding.md R37). -/
theorem append_fields_eq (w : Byte) :
    (Cmd8.ofWord w).rsvd ++ ((Cmd8.ofWord w).fn ++ (Cmd8.ofWord w).n) = w := by
  change w.extractLsb' 6 2 ++ (w.extractLsb' 3 3 ++ w.extractLsb' 0 3) = w
  rw [BitVec.extractLsb'_append_extractLsb'_eq_extractLsb' (start₂ := 3) (len₂ := 3) rfl,
    BitVec.extractLsb'_append_extractLsb'_eq_extractLsb' (start₂ := 6) (len₂ := 2) rfl,
    BitVec.extractLsb'_eq_self]

theorem ofWord_injective : Function.Injective Cmd8.ofWord := fun v w h => by
  rw [← append_fields_eq v, h, append_fields_eq w]

theorem roundTrip : ∀ i : Instr, Laws.RoundTrip.Statement i
  | .tochar  => Laws.RoundTrip.tochar
  | .todigit => Laws.RoundTrip.todigit
  | .enc1    => Laws.RoundTrip.enc1
  | .enc2    => Laws.RoundTrip.enc2
  | .enc3    => Laws.RoundTrip.enc3
  | .enc4    => Laws.RoundTrip.enc4
  | .dec2    => Laws.RoundTrip.dec2
  | .dec3    => Laws.RoundTrip.dec3
  | .dec4    => Laws.RoundTrip.dec4
  | .dec5    => Laws.RoundTrip.dec5
  | .encode  => Laws.RoundTrip.encode
  | .decode  => Laws.RoundTrip.decode

theorem instr_wellFormed (i : Instr) : i.wellFormed = true := (roundTrip i).1

theorem ofWord_encode (i : Instr) : Cmd8.ofWord (encode i) = i.fields := (roundTrip i).2.1

theorem decode_encode (i : Instr) (rest : List Byte) : decode (encode i :: rest) = .ok (i, rest) :=
  (roundTrip i).2.2 rest

/-! ### What decodes -/

/-- Fields that name a command are that command's fields (30_encoding.md R38). -/
theorem eq_fields_of_instr {c : Cmd8} {i : Instr} (h : c.instr = .ok i) : c = i.fields := by
  obtain ⟨rsvd, fn, n⟩ := c
  unfold Cmd8.instr at h
  split at h
  · cases h
  · next hrsvd =>
    obtain rfl : rsvd = 0 := not_not.mp hrsvd
    split at h <;> cases h
    all_goals
      next hfn hn =>
      exact congrArg₂ (Cmd8.mk 0) (BitVec.eq_of_toNat_eq hfn) (BitVec.eq_of_toNat_eq hn)

/-- A word decodes to a command exactly when it is the command's word. -/
theorem decodeWord_eq_ok {w : Byte} {i : Instr} : decodeWord w = .ok i ↔ encode i = w := by
  constructor
  · intro h
    exact ofWord_injective ((ofWord_encode i).trans (eq_fields_of_instr h).symm)
  · rintro rfl
    cases i <;> rfl

theorem eq_encode_cons_of_decode {bytes rest : List Byte} {i : Instr}
    (h : decode bytes = .ok (i, rest)) : bytes = encode i :: rest := by
  cases bytes with
  | nil => cases h
  | cons w tail =>
    simp only [decode] at h
    split at h
    · next j hj =>
      cases h
      rw [decodeWord_eq_ok.mp hj]
    · cases h

/-- Settles O42: one command is one byte, and that byte is the command's word. -/
theorem decodeEncodeAgree : Obligations.DecodeEncodeAgree :=
  ⟨fun i rest _ => decode_encode i rest, fun _ _ _ => eq_encode_cons_of_decode⟩

/-- A word is `fn * 8 + n` (30_encoding.md R37). -/
theorem encode_toNat (i : Instr) : (encode i).toNat = i.fields.fn.toNat * 8 + i.fields.n.toNat := by
  cases i <;> rfl

/-- Settles O41: each of the twelve words is its command's, and `decodeWord_eq_ok` leaves no other. -/
theorem theTwelveWords : Obligations.TheTwelveWords :=
  ⟨⟨rfl, rfl, rfl, rfl, rfl, rfl, rfl, rfl, rfl, rfl, rfl, rfl⟩, fun _ _ => decodeWord_eq_ok.mp,
    encode_toNat⟩

/-! ### The reserved words -/

/-- The twelve commands, in the order of spec/opcode_table.json. -/
def commands : List Instr :=
  [.tochar, .todigit, .enc1, .enc2, .enc3, .enc4, .dec2, .dec3, .dec4, .dec5, .encode, .decode]

theorem mem_commands (i : Instr) : i ∈ commands := by
  cases i <;> decide

/-- The words of the twelve commands, as numbers. -/
def commandWords : List Nat := commands.map fun i => (encode i).toNat

/-- Among the numbers of a byte, those that decode to a command are the twelve words. -/
theorem decoding_perm_commandWords :
    ((List.range 256).filter fun n => (decodeWord (BitVec.ofNat 8 n)).isOk).Perm commandWords := by
  rw [List.perm_ext_iff_of_nodup (List.nodup_range.filter _) (by decide)]
  intro n
  simp only [List.mem_filter, List.mem_range, commandWords, List.mem_map]
  constructor
  · rintro ⟨hn, hok⟩
    cases hd : decodeWord (BitVec.ofNat 8 n) with
    | ok i =>
      refine ⟨i, mem_commands i, ?_⟩
      rw [decodeWord_eq_ok.mp hd, BitVec.toNat_ofNat, Nat.mod_eq_of_lt hn]
    | error r => simp [hd, Except.isOk, Except.toBool] at hok
  · rintro ⟨i, -, rfl⟩
    refine ⟨(encode i).isLt, ?_⟩
    rw [BitVec.ofNat_toNat, BitVec.setWidth_eq, decodeWord_eq_ok.mpr rfl]
    rfl

theorem reserved_count :
    ((List.range 256).filter fun n => !(decodeWord (BitVec.ofNat 8 n)).isOk).length = 244 := by
  have hsum := (List.range 256).length_eq_length_filter_add
    fun n => (decodeWord (BitVec.ofNat 8 n)).isOk
  have htwelve : commandWords.length = 12 := rfl
  rw [List.length_range, decoding_perm_commandWords.length_eq, htwelve] at hsum
  omega

/-- A word that is no command's completes with `Illegal` (30_encoding.md R39). -/
theorem coreTurn_of_no_word {s : State} (hb : s.busy = true) (hlatch : ∀ i : Instr, encode i ≠ s.latch) :
    coreTurn s = .next (raise .illegal s) := by
  cases hd : decodeWord s.latch with
  | ok i => exact absurd (decodeWord_eq_ok.mp hd) (hlatch i)
  | error r => exact coreTurn_of_reserved hb hd

/-- Settles O43: a word that decodes is one of the twelve, none of which has a pattern of R39. -/
theorem reservedWordsAreIllegal : Obligations.ReservedWordsAreIllegal := by
  refine ⟨reserved_count, ?patterns, fun _ => nofun, fun _ => nofun,
    fun s hb hlatch => ⟨_, coreTurn_of_no_word hb hlatch, raise_completed _ s⟩⟩
  case patterns =>
    rintro w fn n rfl rfl hreserved i hi
    obtain rfl := decodeWord_eq_ok.mp hi
    revert hreserved
    cases i <;> decide

end Sys2Proof.Machine
end

section
/-! The alphabet (40_alphabet.md). The valid bytes are the two ranges on either side of 0x5C; `toChar` runs
through them in order, `toDigit?` is its inverse, and TOCHAR and TODIGIT deliver one byte of these two. -/

namespace Sys2Proof.Machine

/-! ### The valid bytes -/

/-- The valid bytes in order: 52 below the gap at 0x5C and 33 above it (30_encoding.md R34). -/
theorem validCodes_eq : ((List.range 256).filter fun n => isValid (BitVec.ofNat 8 n)) =
    List.range' 0x28 52 ++ List.range' 0x5D 33 := by
  decide

theorem validCodes_below_gap : ((List.range 0x5C).filter fun n => isValid (BitVec.ofNat 8 n)) =
    List.range' 0x28 52 := by
  decide

theorem validCodes_above_gap :
    ((List.range 256).filter fun n => decide (0x5C < n) && isValid (BitVec.ofNat 8 n)) =
      List.range' 0x5D 33 := by
  rw [← List.filter_filter, validCodes_eq]
  decide

/-- What is not valid is the rest of the 256 bytes. -/
theorem invalidCodes_length :
    ((List.range 256).filter fun n => !isValid (BitVec.ofNat 8 n)).length = 171 := by
  have hsum := (List.range 256).length_eq_length_filter_add fun n => isValid (BitVec.ofNat 8 n)
  rw [validCodes_eq, List.length_append, List.length_range', List.length_range', List.length_range] at hsum
  omega

theorem isValid_of_msb {c : Byte} (h : c.getLsbD 7 = true) : isValid c = false := by
  have hhigh : 128 ≤ c.toNat := Nat.ge_two_pow_of_testBit h
  rw [Bool.eq_false_iff, Ne, isValid_iff]
  omega

/-! ### `to_char` and `to_digit` -/

theorem charOf?_digit (d : Digit) : charOf? d.val = some (toChar d) := by
  simp [charOf?, digit?]

theorem charOf?_eq_none {n : Nat} (h : 84 < n) : charOf? n = none := by
  simp [charOf?, digit?, show ¬ n < 85 by omega]

theorem toDigit?_toChar (d : Digit) : toDigit? (toChar d) = some d :=
  (toDigit?_eq_some _ d).mpr rfl

theorem exists_digit_of_valid {c : Byte} (h : isValid c = true) : ∃ d, toDigit? c = some d :=
  Option.isSome_iff_exists.mp ((toDigit?_isSome c).trans h)

theorem toChar_strictMono : StrictMono fun d : Digit => (toChar d).toNat := by
  intro d e hde
  have hlt : d.val < e.val := hde
  simp only [toChar_toNat]
  split <;> split <;> omega

/-! ### TOCHAR and TODIGIT -/

theorem exec_tochar_of_char {s : State} {c : Byte} (h : charOf? (readIn s 0).toNat = some c) :
    exec .tochar s = .next (deliver [c] s) := by
  simp only [exec, execTochar, digitOperand, h]

theorem exec_tochar_of_no_char {s : State} (h : charOf? (readIn s 0).toNat = none) :
    exec .tochar s = .next (raise .illegal s) := by
  simp only [exec, execTochar, digitOperand, h]

theorem exec_todigit_of_digit {s : State} {d : Digit} (h : toDigit? (readIn s 0) = some d) :
    exec .todigit s = .next (deliver [BitVec.ofNat 8 d.val] s) := by
  simp only [exec, execTodigit, charOperand, h]

theorem exec_todigit_of_no_digit {s : State} (h : toDigit? (readIn s 0) = none) :
    exec .todigit s = .next (raise .invalidChar s) := by
  simp only [exec, execTodigit, charOperand, h]

/-- One delivered byte is in OUT[0]. -/
theorem readOut_deliver_singleton (b : Byte) (s : State) : readOut (deliver [b] s) 0 = b :=
  readOut_deliver [b] s 0 Nat.one_pos

/-! ### The obligations -/

/-- Settles O4: `toDigit?` is the inverse of `toChar`, so it inherits strict monotony from it. -/
theorem alphabetBijection : Obligations.AlphabetBijection := by
  refine ⟨fun d => ⟨toChar_valid d, toDigit?_toChar d⟩, fun c hc => ?surjective,
    fun d e hde => toChar_strictMono hde, fun b c d e hb hc hbc => ?digitMono⟩
  case surjective =>
    obtain ⟨d, hd⟩ := exists_digit_of_valid hc
    exact ⟨d, hd, ((toDigit?_eq_some c d).mp hd).symm⟩
  case digitMono =>
    rw [toDigit?_eq_some] at hb hc
    subst hb hc
    exact toChar_strictMono.lt_iff_lt.mp hbc

/-- Settles O14: a byte up to 84 is a digit and its character is delivered, any other raises `Illegal`. -/
theorem tocharResult : Obligations.TocharResult := by
  refine fun s => ⟨fun h => ?digit, fun h => ?above⟩
  case digit =>
    have hchar := charOf?_digit ⟨(readIn s 0).toNat, by omega⟩
    refine ⟨_, exec_tochar_of_char hchar, deliver_completed [_] s, ?_⟩
    rw [readOut_deliver_singleton, hchar]
  case above =>
    exact ⟨_, exec_tochar_of_no_char (charOf?_eq_none h), raise_completed _ s⟩

/-- Settles O15: a valid character's digit, which fits in a byte, is delivered, any other raises
`InvalidChar`. -/
theorem todigitResult : Obligations.TodigitResult := by
  refine fun s => ⟨fun d hd => ?valid, fun h => ?invalid⟩
  case valid =>
    refine ⟨_, exec_todigit_of_digit hd, deliver_completed [_] s, ?_⟩
    rw [readOut_deliver_singleton, BitVec.toNat_ofNat, Nat.mod_eq_of_lt (by omega)]
  case invalid =>
    exact ⟨_, exec_todigit_of_no_digit ((toDigit?_eq_none _).mpr h), raise_completed _ s⟩

/-- Settles O1: the list of the valid bytes gives every count. -/
theorem alphabetIsTheTwoRanges : Obligations.AlphabetIsTheTwoRanges := by
  refine ⟨isValid_iff, ?all, ?below, ?above, invalidCodes_length, rfl, rfl, rfl, fun _ => isValid_of_msb⟩
  case all => rw [validCodes_eq, List.length_append, List.length_range', List.length_range']
  case below => rw [validCodes_below_gap, List.length_range']
  case above => rw [validCodes_above_gap, List.length_range']

/-- Settles O2: the gap is passed once, between the digits 51 and 52. -/
theorem toCharClosesTheGap : Obligations.ToCharClosesTheGap := by
  refine ⟨fun d => ⟨?onSum, fun h => ?below, fun h => ?above, toChar_valid d, charOf?_digit d⟩,
    fun _ => charOf?_eq_none⟩
  case onSum =>
    rw [toChar_toNat]
    split <;> split <;> omega
  case below => rw [toChar_toNat, if_pos h]
  case above => rw [toChar_toNat, if_neg (by omega)]

/-- Settles O3: a byte has a digit exactly when it is valid, and `toDigit?_val` says which. -/
theorem toDigitOnValidBytesOnly : Obligations.ToDigitOnValidBytesOnly := by
  refine ⟨fun c hc => ?_, fun c => (toDigit?_eq_none c).mpr⟩
  obtain ⟨d, hd⟩ := exists_digit_of_valid hc
  exact ⟨d, hd, (toDigit?_val hd).2⟩

end Sys2Proof.Machine
end

section
/-! The group encoders (41_encode_group.md). A byte list is the base-256 spelling of its value, an encoded
group the base-85 spelling of the same value with one digit more; up to four bytes that digit is enough, and
ENC1 to ENC4 deliver exactly these characters. -/

namespace Sys2Proof.Machine

/-! ### The value of a byte list -/

theorem leValue_eq_ofDigits (bytes : List Byte) : leValue bytes = Nat.ofDigits 256 (bytes.map BitVec.toNat) := by
  induction bytes with
  | nil => rfl
  | cons b bs ih => rw [leValue, ih, List.map_cons, Nat.ofDigits_cons]

theorem byteCodes_lt (bytes : List Byte) : ∀ n ∈ bytes.map BitVec.toNat, n < 256 := by
  intro n hn
  obtain ⟨b, -, rfl⟩ := List.mem_map.mp hn
  exact b.isLt

theorem leValue_eq_sum (bytes : List Byte) :
    leValue bytes = ∑ i ∈ Finset.range bytes.length, 256 ^ i * (bytes.getD i 0).toNat := by
  induction bytes with
  | nil => rfl
  | cons b bs ih =>
    rw [leValue, ih, List.length_cons, Finset.sum_range_succ', Finset.mul_sum]
    simp only [List.getD_cons_succ, List.getD_cons_zero, pow_succ', pow_zero, mul_assoc, one_mul, add_comm]

theorem leValue_lt (bytes : List Byte) : leValue bytes < 256 ^ bytes.length := by
  have h := Nat.ofDigits_lt_base_pow_length (by decide) (byteCodes_lt bytes)
  rwa [← leValue_eq_ofDigits, List.length_map] at h

theorem leValue_append_zeros (bytes : List Byte) (k : Nat) :
    leValue (bytes ++ List.replicate k 0) = leValue bytes := by
  simp only [leValue_eq_ofDigits, List.map_append, List.map_replicate]
  exact Nat.ofDigits_append_replicate_zero _

/-- Byte lists of one length are told apart by their value. -/
theorem leValue_injective {b₁ b₂ : List Byte} (hlen : b₁.length = b₂.length)
    (h : leValue b₁ = leValue b₂) : b₁ = b₂ := by
  rw [leValue_eq_ofDigits, leValue_eq_ofDigits] at h
  exact List.map_injective_iff.mpr BitVec.toNat_injective
    (Nat.ofDigits_inj_of_len_eq (by decide) (by simpa using hlen) (byteCodes_lt b₁) (byteCodes_lt b₂) h)

/-- The value of `MemRead(IN, 0, n)`. -/
theorem leValue_memReadIn (s : State) (n : Nat) :
    leValue (memReadIn s 0 n) = ∑ i ∈ Finset.range n, 256 ^ i * (readIn s i).toNat := by
  rw [leValue_eq_sum, memReadIn_length]
  refine Finset.sum_congr rfl fun i hi => ?_
  rw [List.getD_eq_getElem?_getD, memReadIn_getElem? _ _ _ _ (Finset.mem_range.mp hi), Nat.zero_add,
    Option.getD_some]

/-! ### The characters of a number -/

theorem encDigits_getElem? {k i : Nat} (v : Nat) (hi : i < k) :
    (encDigits k v)[i]? = charOf? (v / 85 ^ i % 85) := by
  induction k generalizing v i with
  | zero => omega
  | succ k ih =>
    rw [encDigits]
    cases i with
    | zero =>
      rw [List.getElem?_cons_zero, pow_zero, Nat.div_one]
      exact (charOf?_digit ⟨v % 85, _⟩).symm
    | succ i => rw [List.getElem?_cons_succ, ih _ (by omega), Nat.div_div_eq_div_mul, pow_succ']

theorem encDigits_valid (k v : Nat) : ∀ c ∈ encDigits k v, isValid c = true := by
  induction k generalizing v with
  | zero => exact fun c hc => absurd hc List.not_mem_nil
  | succ k ih => exact List.forall_mem_cons.mpr ⟨toChar_valid _, ih _⟩

/-- `k` characters spell `j` low digits and then the digits of what is left. -/
theorem encDigits_add (j k v : Nat) : encDigits (j + k) v = encDigits j v ++ encDigits k (v / 85 ^ j) := by
  induction j generalizing v with
  | zero => rw [Nat.zero_add, pow_zero, Nat.div_one, encDigits, List.nil_append]
  | succ j ih =>
    rw [Nat.succ_add, encDigits, encDigits, ih, Nat.div_div_eq_div_mul, ← pow_succ', List.cons_append]

theorem encDigits_zero (k : Nat) : encDigits k 0 = List.replicate k 0x28 := by
  induction k with
  | zero => rfl
  | succ k ih => exact congrArg (List.cons 0x28) ih

/-- Numbers that fit in `k` digits are told apart by their `k` characters. -/
theorem encDigits_injective {k v w : Nat} (hv : v < 85 ^ k) (hw : w < 85 ^ k)
    (h : encDigits k v = encDigits k w) : v = w := by
  induction k generalizing v w with
  | zero => omega
  | succ k ih =>
    rw [pow_succ] at hv hw
    obtain ⟨hlow, hhigh⟩ := List.cons.inj h
    have hmod : v % 85 = w % 85 := Fin.mk.inj (toChar_injective hlow)
    have hdiv : v / 85 = w / 85 :=
      ih (Nat.div_lt_of_lt_mul (by omega)) (Nat.div_lt_of_lt_mul (by omega)) hhigh
    rw [← Nat.div_add_mod v 85, ← Nat.div_add_mod w 85, hmod, hdiv]

/-! ### The characters of a group -/

/-- Up to four bytes, one base-85 digit more than bytes is enough. -/
theorem pow_bytes_lt_pow_digits {n : Nat} (hn : n ≤ 4) : 256 ^ n < 85 ^ (n + 1) := by
  interval_cases n <;> decide

theorem leValue_lt_pow_digits {bytes : List Byte} (hlen : bytes.length ≤ 4) :
    leValue bytes < 85 ^ (bytes.length + 1) :=
  (leValue_lt bytes).trans (pow_bytes_lt_pow_digits hlen)

theorem encGroup_getElem? {bytes : List Byte} {i : Nat} (hi : i ≤ bytes.length) :
    (encGroup bytes)[i]? = charOf? (leValue bytes / 85 ^ i % 85) :=
  encDigits_getElem? _ (Nat.lt_succ_of_le hi)

theorem encGroup_injective {b₁ b₂ : List Byte} (hlen : b₁.length ≤ 4) (heq : b₂.length = b₁.length)
    (h : encGroup b₁ = encGroup b₂) : b₁ = b₂ := by
  rw [encGroup, encGroup, heq] at h
  have hfits : leValue b₂ < 85 ^ (b₁.length + 1) := heq ▸ leValue_lt_pow_digits (heq.le.trans hlen)
  exact leValue_injective heq.symm (encDigits_injective (leValue_lt_pow_digits hlen) hfits h)

/-- Zero bytes at the high end of a group are encoded as digits 0 at its high end. -/
theorem encGroup_append_zeros {bytes : List Byte} (hlen : bytes.length ≤ 4) (k : Nat) :
    encGroup (bytes ++ List.replicate k 0) = encGroup bytes ++ List.replicate k 0x28 := by
  rw [encGroup, leValue_append_zeros, List.length_append, List.length_replicate, Nat.add_right_comm,
    encDigits_add, Nat.div_eq_of_lt (leValue_lt_pow_digits hlen), encDigits_zero, encGroup]

/-- What the last of a group's digits can be at most. -/
theorem leValue_div_le (bytes : List Byte) :
    leValue bytes / 85 ^ bytes.length ≤ (256 ^ bytes.length - 1) / 85 ^ bytes.length :=
  Nat.div_le_div_right (Nat.le_pred_of_lt (leValue_lt bytes))

/-- The last digit of a group of up to four bytes needs no reduction. -/
theorem leValue_div_lt {bytes : List Byte} (hlen : bytes.length ≤ 4) :
    leValue bytes / 85 ^ bytes.length < 85 :=
  Nat.div_lt_of_lt_mul (pow_succ 85 bytes.length ▸ leValue_lt_pow_digits hlen)

theorem encGroup_getElem?_last {bytes : List Byte} (hlen : bytes.length ≤ 4) :
    (encGroup bytes)[bytes.length]? = charOf? (leValue bytes / 85 ^ bytes.length) := by
  rw [encGroup_getElem? le_rfl, Nat.mod_eq_of_lt (leValue_div_lt hlen)]

/-- A bound on the last digit of a group of `n` bytes bounds its last character. -/
theorem encGroup_last_le {bytes : List Byte} {n : Nat} (d : Digit) (hn : n ≤ 4)
    (hd : (256 ^ n - 1) / 85 ^ n ≤ d.val) (hlen : bytes.length = n) :
    ((encGroup bytes).getD n 0).toNat ≤ (toChar d).toNat := by
  subst hlen
  have hlt := leValue_div_lt hn
  have hchar := (encGroup_getElem?_last hn).trans (charOf?_digit ⟨_, hlt⟩)
  rw [List.getD_eq_getElem?_getD, hchar, Option.getD_some]
  exact toChar_strictMono.monotone (a := ⟨_, hlt⟩) ((leValue_div_le bytes).trans hd)

/-! ### ENC1 to ENC4 -/

theorem encodeGroup_completed (n : Nat) (s : State) : Completed .ok (n + 1) s (encodeGroup n s) := by
  have h := deliver_completed (encGroup (groupOperand n s)) s
  rwa [encGroup_length, groupOperand, memReadIn_length] at h

/-- The bytes an encoder leaves in OUT are the characters of its operand's encoding. -/
theorem readOut_encodeGroup (s : State) {n i : Nat} (hi : i ≤ n) :
    (encGroup (memReadIn s 0 n))[i]? = some (readOut (encodeGroup n s) i) := by
  have hlt : i < (encGroup (memReadIn s 0 n)).length := by rw [encGroup_length, memReadIn_length]; omega
  rw [List.getElem?_eq_getElem hlt, encodeGroup, groupOperand, readOut_deliver _ _ _ hlt]

/-- The result of the encoder of `n` bytes of value `v`: the `n + 1` digits of `v`, the last of them not
reduced and bounded by the largest value of `n` bytes. -/
theorem encodeGroup_result (s : State) {n v : Nat} (hn : n ≤ 4)
    (hv : v = ∑ i ∈ Finset.range n, 256 ^ i * (readIn s i).toNat) :
    Completed .ok (n + 1) s (encodeGroup n s) ∧
    (∀ i ≤ n, charOf? (v / 85 ^ i % 85) = some (readOut (encodeGroup n s) i)) ∧
    charOf? (v / 85 ^ n) = some (readOut (encodeGroup n s) n) ∧
    v / 85 ^ n ≤ (256 ^ n - 1) / 85 ^ n := by
  have hlen : (memReadIn s 0 n).length = n := memReadIn_length s 0 n
  rw [← leValue_memReadIn] at hv
  subst hv
  refine ⟨encodeGroup_completed n s, fun i hi => ?digit, ?last, ?bound⟩
  case digit => rw [← readOut_encodeGroup s hi, encGroup_getElem? (by omega)]
  case last =>
    have h := encGroup_getElem?_last (bytes := memReadIn s 0 n) (by omega)
    rw [hlen] at h
    rw [← h, readOut_encodeGroup s le_rfl]
  case bound =>
    have h := leValue_div_le (memReadIn s 0 n)
    rwa [hlen] at h

/-! ### The obligations -/

/-- Settles O6: the value is read in base 256, where every byte is a digit. -/
theorem littleEndianValue : Obligations.LittleEndianValue := fun bytes =>
  ⟨leValue_eq_sum bytes, leValue_lt bytes, leValue_append_zeros bytes⟩

/-- Settles O7: `encDigits` spells the value in base 85, and every digit has a valid character. -/
theorem encodedGroupDigits : Obligations.EncodedGroupDigits := fun bytes _ _ =>
  ⟨encGroup_length bytes, fun _ => encGroup_getElem?, encDigits_valid _ _⟩

/-- Settles O8: one digit more than bytes is enough, so characters determine the value and the value the
bytes. -/
theorem encodedGroupLosesNothing : Obligations.EncodedGroupLosesNothing :=
  ⟨fun bytes _ hlen => ⟨leValue_lt bytes, pow_bytes_lt_pow_digits hlen,
      Nat.div_eq_of_lt (leValue_lt_pow_digits hlen)⟩,
    fun _ _ _ hlen heq => encGroup_injective hlen heq⟩

/-- Settles O9: the last digits are at most 3, 9, 27 and 82, and `toChar` is monotone. -/
theorem encodedGroupLastCharacter : Obligations.EncodedGroupLastCharacter := fun _ =>
  ⟨encGroup_last_le 3 (by decide) (by decide), encGroup_last_le 9 (by decide) (by decide),
    encGroup_last_le 27 (by decide) (by decide), encGroup_last_le 82 (by decide) (by decide)⟩

/-- Settles O16: ENC1 is the encoder of one byte. -/
theorem enc1Result : Obligations.Enc1Result := by
  intro s v hv
  obtain ⟨hdone, hdigit, hlast, hbound⟩ :=
    encodeGroup_result s (n := 1) (v := v) (by decide) (by simpa [Finset.sum_range_succ] using hv)
  exact ⟨_, rfl, hdone, by simpa using hdigit 0 (by decide), hlast, hbound⟩

/-- Settles O17: ENC2 is the encoder of two bytes. -/
theorem enc2Result : Obligations.Enc2Result := by
  intro s v hv
  obtain ⟨hdone, hdigit, hlast, hbound⟩ :=
    encodeGroup_result s (n := 2) (v := v) (by decide) (by simpa [Finset.sum_range_succ] using hv)
  exact ⟨_, rfl, hdone, by simpa using hdigit 0 (by decide), hdigit 1 (by decide), hlast, hbound⟩

/-- Settles O18: ENC3 is the encoder of three bytes; the padding remark holds of any group that fits. -/
theorem enc3Result : Obligations.Enc3Result := by
  refine ⟨fun s v hv => ?result, fun bytes k _ hk => encGroup_append_zeros (by omega) k⟩
  obtain ⟨hdone, hdigit, hlast, hbound⟩ :=
    encodeGroup_result s (n := 3) (v := v) (by decide) (by simpa [Finset.sum_range_succ] using hv)
  exact ⟨_, rfl, hdone, by simpa using hdigit 0 (by decide), hdigit 1 (by decide), hdigit 2 (by decide),
    hlast, hbound⟩

/-- Settles O19: ENC4 is the encoder of four bytes. -/
theorem enc4Result : Obligations.Enc4Result := by
  intro s v hv
  obtain ⟨hdone, hdigit, hlast, hbound⟩ :=
    encodeGroup_result s (n := 4) (v := v) (by decide) (by simpa [Finset.sum_range_succ] using hv)
  exact ⟨_, rfl, hdone, by simpa using hdigit 0 (by decide), hdigit 1 (by decide), hdigit 2 (by decide),
    hdigit 3 (by decide), hlast, hbound⟩

end Sys2Proof.Machine
end

section
/-! The group decoders (42_decode_group.md). A digit list is the base-85 spelling of its value, a decoded group
the base-256 spelling of that value's remainder with one byte fewer than digits; so decoding inverts encoding,
encoding inverts decoding exactly where the remainder is the value, and DEC2 to DEC5 deliver these bytes. -/

namespace Sys2Proof.Machine

/-! ### The digits of a character list -/

theorem map_toDigit?_eq_map_some (chars : List Byte) (ds : List Digit) :
    chars.map toDigit? = ds.map some ↔ chars = ds.map toChar := by
  induction chars generalizing ds with
  | nil => cases ds <;> simp
  | cons c cs ih =>
    cases ds with
    | nil => simp
    | cons d ds => simp only [List.map_cons, List.cons.injEq, toDigit?_eq_some, ih]

theorem digits?_eq_some_iff_map (chars : List Byte) (ds : List Digit) :
    digits? chars = some ds ↔ chars.map toDigit? = ds.map some :=
  (digits?_eq_some chars ds).trans (map_toDigit?_eq_map_some chars ds).symm

theorem digits?_eq_none_iff_exists (chars : List Byte) :
    digits? chars = none ↔ ∃ c ∈ chars, isValid c = false := by
  rw [digits?_eq_none]
  simp only [not_forall, Bool.not_eq_true, exists_prop]

/-! ### The value of a digit list -/

theorem decValue_eq_ofDigits (ds : List Digit) : decValue ds = Nat.ofDigits 85 (ds.map Fin.val) := by
  induction ds with
  | nil => rfl
  | cons d ds ih => rw [decValue, ih, List.map_cons, Nat.ofDigits_cons]

theorem decValue_eq_sum (ds : List Digit) :
    decValue ds = ∑ i ∈ Finset.range ds.length, 85 ^ i * (ds.getD i 0).val := by
  induction ds with
  | nil => rfl
  | cons d ds ih =>
    rw [decValue, ih, List.length_cons, Finset.sum_range_succ', Finset.mul_sum]
    simp only [List.getD_cons_succ, List.getD_cons_zero, pow_succ', pow_zero, mul_assoc, one_mul, add_comm]

theorem decValue_lt (ds : List Digit) : decValue ds < 85 ^ ds.length := by
  have hdigits : ∀ n ∈ ds.map Fin.val, n < 85 := List.forall_mem_map.mpr fun d _ => d.isLt
  have h := Nat.ofDigits_lt_base_pow_length (by decide) hdigits
  rwa [← decValue_eq_ofDigits, List.length_map] at h

theorem decValue_lt_of_length_le {ds : List Digit} {m : Nat} (hlen : ds.length ≤ m) :
    decValue ds < 85 ^ m :=
  (decValue_lt ds).trans_le (Nat.pow_le_pow_right (by decide) hlen)

/-- An accumulator that wraps around after every step holds the value's remainder. -/
theorem foldr_mod_eq_decValue_mod (M : Nat) (ds : List Digit) :
    ds.foldr (fun d acc => (d.val + 85 * acc) % M) 0 = decValue ds % M := by
  induction ds with
  | nil => rw [List.foldr_nil, decValue, Nat.zero_mod]
  | cons d ds ih => rw [List.foldr_cons, ih, decValue, Nat.add_mod, Nat.mul_mod_mod, ← Nat.add_mod]

/-! ### The low bytes of a number -/

theorem lowBytes_succ (k v : Nat) :
    lowBytes (k + 1) v = BitVec.ofNat 8 (v % 256) :: lowBytes k (v / 256) := by
  simp only [lowBytes, List.range_succ_eq_map, List.map_cons, List.map_map, pow_zero, Nat.div_one,
    Function.comp_def, Nat.div_div_eq_div_mul, pow_succ']

theorem leValue_lowBytes (k v : Nat) : leValue (lowBytes k v) = v % 256 ^ k := by
  induction k generalizing v with
  | zero => rw [pow_zero, Nat.mod_one]; rfl
  | succ k ih =>
    rw [lowBytes_succ, leValue, ih, BitVec.toNat_ofNat, Nat.mod_mod, pow_succ', Nat.mod_mul]

/-- A byte list is the low bytes of its value. -/
theorem lowBytes_leValue (bytes : List Byte) : lowBytes bytes.length (leValue bytes) = bytes :=
  leValue_injective (lowBytes_length _ _)
    ((leValue_lowBytes _ _).trans (Nat.mod_eq_of_lt (leValue_lt bytes)))

/-- Low bytes survive a reduction modulo more bytes. -/
theorem lowBytes_mod_pow {k n : Nat} (hk : k ≤ n) (v : Nat) : lowBytes k (v % 256 ^ n) = lowBytes k v := by
  apply leValue_injective
  · rw [lowBytes_length, lowBytes_length]
  · rw [leValue_lowBytes, leValue_lowBytes, Nat.mod_mod_of_dvd _ (pow_dvd_pow 256 hk)]

theorem lowBytes_getElem_toNat (k v j : Nat) (hj : j < (lowBytes k v).length) :
    (lowBytes k v)[j].toNat = v / 256 ^ j % 256 := by
  rw [lowBytes_getElem, BitVec.toNat_ofNat, Nat.mod_mod]

/-! ### The bytes of a group -/

theorem leValue_decGroup (ds : List Digit) :
    leValue (decGroup ds) = decValue ds % 256 ^ (ds.length - 1) :=
  leValue_lowBytes _ _

theorem decGroup_getElem_toNat (ds : List Digit) (j : Nat) (hj : j < (decGroup ds).length) :
    (decGroup ds)[j].toNat = decValue ds / 256 ^ j % 256 :=
  lowBytes_getElem_toNat _ _ j hj

/-- Up to five digits, an accumulator of 32 bits holds every byte of the group. -/
theorem decGroup_eq_lowBytes_wrapped {ds : List Digit} (hlen : ds.length ≤ 5) :
    decGroup ds = lowBytes (ds.length - 1) (ds.foldr (fun d acc => (d.val + 85 * acc) % 2 ^ 32) 0) := by
  rw [foldr_mod_eq_decValue_mod, show 2 ^ 32 = 256 ^ 4 from rfl, lowBytes_mod_pow (by omega), decGroup]

/-! ### Decoding and encoding -/

/-- The characters of digits are those of their value. -/
theorem encDigits_decValue (ds : List Digit) : encDigits ds.length (decValue ds) = ds.map toChar := by
  induction ds with
  | nil => rfl
  | cons d ds ih =>
    have hlow : (d.val + 85 * decValue ds) % 85 = d.val := by omega
    have hhigh : (d.val + 85 * decValue ds) / 85 = decValue ds := by omega
    simp only [List.length_cons, decValue, encDigits, hlow, hhigh, ih, List.map_cons]

/-- The characters of a number that fits in them have digits, of that value. -/
theorem exists_digits?_encDigits {k v : Nat} (hv : v < 85 ^ k) :
    ∃ ds, digits? (encDigits k v) = some ds ∧ ds.length = k ∧ decValue ds = v := by
  obtain ⟨ds, hds⟩ : ∃ ds, digits? (encDigits k v) = some ds := by
    rw [← Option.isSome_iff_exists, digits?_isSome, List.all_eq_true]
    exact encDigits_valid k v
  have hlen : ds.length = k := (digits?_length hds).trans (encDigits_length k v)
  have hchars : encDigits k (decValue ds) = encDigits k v := by
    rw [(digits?_eq_some _ _).mp hds, ← encDigits_decValue, hlen]
  exact ⟨ds, hds, hlen, encDigits_injective (decValue_lt_of_length_le hlen.le) hv hchars⟩

theorem decGroup_encGroup {bytes : List Byte} (hlen : bytes.length ≤ 4) :
    ∃ ds, digits? (encGroup bytes) = some ds ∧ decGroup ds = bytes := by
  obtain ⟨ds, hds, hdslen, hvalue⟩ := exists_digits?_encDigits (leValue_lt_pow_digits hlen)
  refine ⟨ds, hds, ?_⟩
  rw [decGroup, hvalue, hdslen, Nat.add_sub_cancel, lowBytes_leValue]

/-- Re-encoding a decoded group spells the remainder of its value. -/
theorem encGroup_decGroup {ds : List Digit} (hne : 1 ≤ ds.length) :
    encGroup (decGroup ds) = encDigits ds.length (decValue ds % 256 ^ (ds.length - 1)) := by
  rw [encGroup, leValue_decGroup, decGroup_length, Nat.sub_add_cancel hne]

/-- Re-encoding gives the characters back exactly when the value is its own remainder. -/
theorem encGroup_decGroup_eq_iff {ds : List Digit} (hne : 1 ≤ ds.length) :
    encGroup (decGroup ds) = ds.map toChar ↔ decValue ds < 256 ^ (ds.length - 1) := by
  rw [encGroup_decGroup hne, ← encDigits_decValue]
  constructor
  · intro h
    have hfits : decValue ds % 256 ^ (ds.length - 1) < 85 ^ ds.length :=
      (Nat.mod_le _ _).trans_lt (decValue_lt ds)
    rw [← encDigits_injective hfits (decValue_lt ds) h]
    exact Nat.mod_lt _ (Nat.pow_pos (by decide))
  · intro h
    rw [Nat.mod_eq_of_lt h]

/-! ### DEC2 to DEC5 -/

theorem memReadIn_zero (s : State) (a : Nat) : memReadIn s a 0 = [] := rfl

theorem memReadIn_succ (s : State) (a n : Nat) :
    memReadIn s a (n + 1) = readIn s a :: memReadIn s (a + 1) n := by
  simp only [memReadIn, List.range_succ_eq_map, List.map_cons, List.map_map, Function.comp_def,
    Nat.add_zero, Nat.succ_eq_add_one, Nat.add_assoc, Nat.add_comm 1]

theorem readIn_mem_memReadIn (s : State) {x n : Nat} (hx : x < n) : readIn s x ∈ memReadIn s 0 n := by
  have h := memReadIn_getElem? s 0 n x hx
  rw [Nat.zero_add] at h
  exact List.mem_of_getElem? h

theorem decodeGroup_of_digits {m : Nat} {s : State} {ds : List Digit}
    (h : digits? (memReadIn s 0 m) = some ds) : decodeGroup m s = deliver (decGroup ds) s := by
  simp only [decodeGroup, groupOperand, h]

theorem decodeGroup_of_no_digits {m : Nat} {s : State} (h : digits? (memReadIn s 0 m) = none) :
    decodeGroup m s = raise .invalidChar s := by
  simp only [decodeGroup, groupOperand, h]

/-- The bytes a delivered result leaves at the start of OUT. -/
theorem map_readOut_deliver (bytes : List Byte) (s : State) :
    (List.range bytes.length).map (readOut (deliver bytes s)) = bytes := by
  apply List.ext_getElem
  · rw [List.length_map, List.length_range]
  · intro j _ hj
    rw [List.getElem_map, List.getElem_range, readOut_deliver _ _ _ hj]

/-- The decoder of `m` characters with digits `ds` completes and leaves `dec_group` of them in OUT. -/
theorem decodeGroup_completed {m : Nat} {s : State} {ds : List Digit}
    (h : digits? (memReadIn s 0 m) = some ds) :
    Completed .ok (m - 1) s (decodeGroup m s) ∧
      (List.range (m - 1)).map (readOut (decodeGroup m s)) = decGroup ds := by
  have hlen : (decGroup ds).length = m - 1 := by
    rw [decGroup_length, digits?_length h, memReadIn_length]
  rw [decodeGroup_of_digits h, ← hlen]
  exact ⟨deliver_completed _ s, map_readOut_deliver _ s⟩

/-- The result of the decoder of `m` characters whose digits have the value `v`. -/
theorem decodeGroup_result {m v : Nat} {s : State} {ds : List Digit}
    (h : digits? (memReadIn s 0 m) = some ds) (hv : v = decValue ds) :
    v ≤ 85 ^ m - 1 ∧ Completed .ok (m - 1) s (decodeGroup m s) ∧
      ∀ j, j < m - 1 → (readOut (decodeGroup m s) j).toNat = v / 256 ^ j % 256 := by
  subst hv
  have hlen : ds.length = m := (digits?_length h).trans (memReadIn_length s 0 m)
  obtain ⟨hdone, -⟩ := decodeGroup_completed h
  refine ⟨Nat.le_pred_of_lt (decValue_lt_of_length_le hlen.le), hdone, fun j hj => ?_⟩
  have hlt : j < (decGroup ds).length := by rw [decGroup_length]; omega
  rw [decodeGroup_of_digits h, readOut_deliver _ _ _ hlt, decGroup_getElem_toNat]

/-- One invalid character among the `m` is enough for `InvalidChar`. -/
theorem decodeGroup_invalid {m : Nat} {s : State} (h : ∃ x, x < m ∧ isValid (readIn s x) = false) :
    Completed .invalidChar 0 s (decodeGroup m s) := by
  obtain ⟨x, hx, hinvalid⟩ := h
  have hnone : digits? (memReadIn s 0 m) = none :=
    (digits?_eq_none_iff_exists _).mpr ⟨_, readIn_mem_memReadIn s hx, hinvalid⟩
  rw [decodeGroup_of_no_digits hnone]
  exact raise_completed _ s

/-- Each of the four commands is the decoder of its size. -/
theorem exec_decoder {m : Nat} {i : Instr} (s : State)
    (h : (m, i) ∈ [(2, Instr.dec2), (3, .dec3), (4, .dec4), (5, .dec5)]) :
    exec i s = .next (decodeGroup m s) := by
  simp only [List.mem_cons, List.not_mem_nil, or_false, Prod.mk.injEq] at h
  obtain ⟨rfl, rfl⟩ | ⟨rfl, rfl⟩ | ⟨rfl, rfl⟩ | ⟨rfl, rfl⟩ := h <;> rfl

/-! ### The obligations -/

/-- Settles O5: characters and digits correspond place by place, and an invalid character has no digit. -/
theorem validationPrecedesLookup : Obligations.ValidationPrecedesLookup := fun chars =>
  ⟨digits?_eq_none_iff_exists chars, digits?_eq_some_iff_map chars⟩

/-- Settles O10: the value is read in base 85, where every digit is one; 85^5 is below 2^33 and 85^4 below
2^26. -/
theorem decodedGroupValue : Obligations.DecodedGroupValue := by
  refine fun ds _ hlen => ⟨decValue_eq_sum ds, Nat.le_pred_of_lt (decValue_lt ds), ?_, fun hfour => ?_⟩
  · exact (decValue_lt_of_length_le hlen).trans (by decide)
  · exact (decValue_lt_of_length_le hfour).trans (by decide)

/-- Settles O11: four bytes of the value are determined modulo 2^32. -/
theorem decodedGroupBytes : Obligations.DecodedGroupBytes := by
  refine fun ds _ hlen => ⟨decGroup_length ds, fun j hj => ?_, decGroup_eq_lowBytes_wrapped hlen⟩
  have hlt : j < (decGroup ds).length := by rwa [decGroup_length]
  rw [List.getD_eq_getElem _ _ hlt, decGroup_getElem_toNat]

/-- Settles O12: the decoder never looks at the size of the value, and what it writes has the remainder as
its value. -/
theorem overlargeGroupIsTruncated : Obligations.OverlargeGroupIsTruncated := by
  intro s m i hi ds hds _
  obtain ⟨hdone, hout⟩ := decodeGroup_completed hds
  refine ⟨_, exec_decoder s hi, hdone, ?_⟩
  rw [hout, leValue_decGroup, digits?_length hds, memReadIn_length]

/-- Settles O13: both directions compare two spellings of one value. -/
theorem groupRoundTrip : Obligations.GroupRoundTrip := by
  refine ⟨fun bytes _ hlen => decGroup_encGroup hlen, fun chars ds htwo _ hds => ?_⟩
  have hne : 1 ≤ ds.length := by rw [digits?_length hds]; omega
  rw [← digits?_length hds, (digits?_eq_some chars ds).mp hds]
  exact encGroup_decGroup_eq_iff hne

/-- Settles O20: DEC2 is the decoder of two characters. -/
theorem dec2Result : Obligations.Dec2Result := by
  refine fun s => ⟨fun d₀ d₁ v h₀ h₁ hv => ?_, fun h => ⟨_, rfl, decodeGroup_invalid h⟩⟩
  have hds : digits? (memReadIn s 0 2) = some [d₀, d₁] := by
    simp [digits?_eq_some_iff_map, memReadIn_succ, memReadIn_zero, h₀, h₁]
  obtain ⟨hbound, hdone, hbyte⟩ := decodeGroup_result (v := v) hds (by simp only [decValue]; omega)
  exact ⟨hbound, _, rfl, hdone, by simpa using hbyte 0 (by decide)⟩

/-- Settles O21: DEC3 is the decoder of three characters. -/
theorem dec3Result : Obligations.Dec3Result := by
  refine fun s => ⟨fun d₀ d₁ d₂ v h₀ h₁ h₂ hv => ?_, fun h => ⟨_, rfl, decodeGroup_invalid h⟩⟩
  have hds : digits? (memReadIn s 0 3) = some [d₀, d₁, d₂] := by
    simp [digits?_eq_some_iff_map, memReadIn_succ, memReadIn_zero, h₀, h₁, h₂]
  obtain ⟨hbound, hdone, hbyte⟩ := decodeGroup_result (v := v) hds (by simp only [decValue]; omega)
  exact ⟨hbound, _, rfl, hdone, by simpa using hbyte 0 (by decide), hbyte 1 (by decide)⟩

/-- Settles O22: DEC4 is the decoder of four characters. -/
theorem dec4Result : Obligations.Dec4Result := by
  refine fun s => ⟨fun d₀ d₁ d₂ d₃ v h₀ h₁ h₂ h₃ hv => ?_, fun h => ⟨_, rfl, decodeGroup_invalid h⟩⟩
  have hds : digits? (memReadIn s 0 4) = some [d₀, d₁, d₂, d₃] := by
    simp [digits?_eq_some_iff_map, memReadIn_succ, memReadIn_zero, h₀, h₁, h₂, h₃]
  obtain ⟨hbound, hdone, hbyte⟩ := decodeGroup_result (v := v) hds (by simp only [decValue]; omega)
  exact ⟨hbound, _, rfl, hdone, by simpa using hbyte 0 (by decide), hbyte 1 (by decide),
    hbyte 2 (by decide)⟩

/-- Settles O23: DEC5 is the decoder of five characters. -/
theorem dec5Result : Obligations.Dec5Result := by
  refine fun s => ⟨fun d₀ d₁ d₂ d₃ d₄ v h₀ h₁ h₂ h₃ h₄ hv => ?_,
    fun h => ⟨_, rfl, decodeGroup_invalid h⟩⟩
  have hds : digits? (memReadIn s 0 5) = some [d₀, d₁, d₂, d₃, d₄] := by
    simp [digits?_eq_some_iff_map, memReadIn_succ, memReadIn_zero, h₀, h₁, h₂, h₃, h₄]
  obtain ⟨hbound, hdone, hbyte⟩ := decodeGroup_result (v := v) hds (by simp only [decValue]; omega)
  exact ⟨hbound, _, rfl, hdone, by simpa using hbyte 0 (by decide), hbyte 1 (by decide),
    hbyte 2 (by decide), hbyte 3 (by decide)⟩

end Sys2Proof.Machine
end

section
/-! The whole-buffer commands (43_buffer_ops.md). ENCODE cuts its input into groups of four bytes, the last
possibly shorter, DECODE into groups of five characters. Everything said of OUT goes through the group an
index lies in (`groupAt`), so a full group and the remainder are one case. -/

namespace Sys2Proof.Machine

/-! ### The lengths -/

theorem encLen_four_mul_add (k l : Nat) : encLen (4 * k + l) = 5 * k + encLen l := by
  have hmod : (4 * k + l) % 4 = l % 4 := by omega
  rw [encLen, encLen, hmod]
  omega

theorem decLen_five_mul_add (k m : Nat) : decLen (5 * k + m) = 4 * k + decLen m := by
  unfold decLen
  omega

theorem encLen_eq_ceil (l : Nat) : encLen l = (5 * l + 3) / 4 := by
  rw [encLen_eq_groups]
  split <;> omega

theorem decLen_encLen (l : Nat) : decLen (encLen l) = l := by
  rw [encLen_eq_ceil, decLen]
  omega

theorem encLen_mod_five_ne_one (l : Nat) : encLen l % 5 ≠ 1 := by
  rw [encLen_eq_ceil]
  omega

theorem encLen_decLen {m : Nat} (h : m % 5 ≠ 1) : encLen (decLen m) = m := by
  rw [encLen_eq_ceil, decLen_eq_groups]
  omega

theorem encLen_mono {l m : Nat} (h : l ≤ m) : encLen l ≤ encLen m := by
  rw [encLen_eq_ceil, encLen_eq_ceil]
  omega

/-! ### The groups of the input -/

/-- Group `g` of the input IN[0 .. ILEN-1] cut into groups of size `k`, the last of which the input's end may
cut short (43_buffer_ops.md R70, R73). -/
def groupAt (k : Nat) (s : State) (g : Nat) : List Byte := memReadIn s (k * g) (min k (s.ilen - k * g))

@[simp] theorem groupAt_length (k : Nat) (s : State) (g : Nat) :
    (groupAt k s g).length = min k (s.ilen - k * g) := memReadIn_length _ _ _

theorem groupAt_full {k g : Nat} {s : State} (hg : g < s.ilen / k) :
    groupAt k s g = memReadIn s (k * g) k := by
  have hend : k * (g + 1) ≤ s.ilen := (Nat.mul_le_mul_left k hg).trans (Nat.mul_div_le s.ilen k)
  rw [Nat.mul_succ] at hend
  rw [groupAt, min_eq_left (by omega)]

theorem groupAt_rest {k : Nat} (hk : 0 < k) (s : State) :
    groupAt k s (s.ilen / k) = memReadIn s (k * (s.ilen / k)) (s.ilen % k) := by
  rw [groupAt, ← Nat.mod_eq_sub, min_eq_right (Nat.mod_lt _ hk).le]

/-- `MemRead` of two ranges that hold the same bytes. -/
theorem memReadIn_eq_of_readIn_eq {s t : State} {a b n : Nat}
    (h : ∀ j, j < n → readIn s (a + j) = readIn t (b + j)) : memReadIn s a n = memReadIn t b n := by
  simp only [memReadIn, List.map_inj_left, List.mem_range]
  exact h

/-- A slice of what `MemRead` read is a `MemRead` of the slice. -/
theorem take_drop_memReadIn (s : State) {a n m : Nat} (h : a + n ≤ m) :
    ((memReadIn s 0 m).drop a).take n = memReadIn s a n := by
  apply List.ext_getElem
  · simp only [List.length_take, List.length_drop, memReadIn_length]
    omega
  · intro j _ _
    simp

/-! ### The checks -/

theorem beyondBuffers_iff (s : State) :
    beyondBuffers s = true ↔ s.ilen > s.params.inSize ∨ s.ocap > s.params.outSize := decide_eq_true_iff

theorem encodeChecks_of_beyond {s : State} (h : s.ilen > s.params.inSize ∨ s.ocap > s.params.outSize) :
    encodeChecks s = some .illegal :=
  if_pos ((beyondBuffers_iff s).mpr h)

theorem decodeChecks_of_beyond {s : State} (h : s.ilen > s.params.inSize ∨ s.ocap > s.params.outSize) :
    decodeChecks s = .error .illegal :=
  if_pos ((beyondBuffers_iff s).mpr h)

theorem exists_digits?_memReadIn {s : State} {n : Nat} (h : ∀ x, x < n → isValid (readIn s x) = true) :
    ∃ ds, digits? (memReadIn s 0 n) = some ds := by
  rw [← Option.isSome_iff_exists, digits?_isSome, List.all_eq_true, memReadIn, List.forall_mem_map]
  intro j hj
  rw [Nat.zero_add]
  exact h j (List.mem_range.mp hj)

section WithinBuffers
variable {s : State} (hin : s.ilen ≤ s.params.inSize) (hout : s.ocap ≤ s.params.outSize)
include hin hout

theorem not_beyondBuffers : ¬ beyondBuffers s = true := by
  rw [beyondBuffers_iff]
  omega

theorem encodeChecks_of_too_short (hcap : s.ocap < encLen s.ilen) :
    encodeChecks s = some .outputTooShort :=
  (if_neg (not_beyondBuffers hin hout)).trans (if_pos hcap)

theorem encodeChecks_of_fits (hcap : encLen s.ilen ≤ s.ocap) : encodeChecks s = none :=
  (if_neg (not_beyondBuffers hin hout)).trans (if_neg (Nat.not_lt.mpr hcap))

theorem decodeChecks_of_bad_length (hlen : s.ilen % 5 = 1) : decodeChecks s = .error .invalidLength :=
  (if_neg (not_beyondBuffers hin hout)).trans (if_pos hlen)

theorem decodeChecks_of_too_short (hlen : s.ilen % 5 ≠ 1) (hcap : s.ocap < decLen s.ilen) :
    decodeChecks s = .error .outputTooShort :=
  (if_neg (not_beyondBuffers hin hout)).trans ((if_neg hlen).trans (if_pos hcap))

/-- Past the checks on the lengths the scan of the input decides (43_buffer_ops.md R72). -/
theorem decodeChecks_of_lengths (hlen : s.ilen % 5 ≠ 1) (hcap : decLen s.ilen ≤ s.ocap) :
    decodeChecks s = (digits? (bufferOperand s)).elim (.error .invalidChar) .ok := by
  rw [decodeChecks, if_neg (not_beyondBuffers hin hout), if_neg hlen, if_neg (Nat.not_lt.mpr hcap)]
  cases digits? (bufferOperand s) <;> rfl

theorem decodeChecks_of_invalid (hlen : s.ilen % 5 ≠ 1) (hcap : decLen s.ilen ≤ s.ocap)
    (hinvalid : ∃ x, x < s.ilen ∧ isValid (readIn s x) = false) :
    decodeChecks s = .error .invalidChar := by
  obtain ⟨x, hx, hc⟩ := hinvalid
  have hnone : digits? (bufferOperand s) = none :=
    (digits?_eq_none_iff_exists _).mpr ⟨_, readIn_mem_memReadIn s hx, hc⟩
  rw [decodeChecks_of_lengths hin hout hlen hcap, hnone, Option.elim_none]

theorem exists_decodeChecks_eq_ok (hlen : s.ilen % 5 ≠ 1) (hcap : decLen s.ilen ≤ s.ocap)
    (hvalid : ∀ x, x < s.ilen → isValid (readIn s x) = true) : ∃ ds, decodeChecks s = .ok ds := by
  obtain ⟨ds, hds⟩ := exists_digits?_memReadIn hvalid
  refine ⟨ds, ?_⟩
  rw [decodeChecks_of_lengths hin hout hlen hcap, bufferOperand, hds, Option.elim_some]

end WithinBuffers

/-- ENCODE's checks raise an error, never `OK`, or everything fits. -/
theorem encodeChecks_cases (s : State) :
    (∃ e, e ≠ .ok ∧ encodeChecks s = some e) ∨
    (encodeChecks s = none ∧ s.ilen ≤ s.params.inSize ∧ s.ocap ≤ s.params.outSize ∧
      encLen s.ilen ≤ s.ocap) := by
  by_cases hbuf : s.ilen > s.params.inSize ∨ s.ocap > s.params.outSize
  · exact .inl ⟨_, by decide, encodeChecks_of_beyond hbuf⟩
  obtain ⟨hin, hout⟩ : s.ilen ≤ s.params.inSize ∧ s.ocap ≤ s.params.outSize := by omega
  rcases Nat.lt_or_ge s.ocap (encLen s.ilen) with hcap | hcap
  · exact .inl ⟨_, by decide, encodeChecks_of_too_short hin hout hcap⟩
  · exact .inr ⟨encodeChecks_of_fits hin hout hcap, hin, hout, hcap⟩

/-- DECODE's checks raise an error, never `OK`, or everything fits. -/
theorem decodeChecks_cases (s : State) :
    (∃ e, e ≠ .ok ∧ decodeChecks s = .error e) ∨
    ((∃ ds, decodeChecks s = .ok ds) ∧ s.ilen ≤ s.params.inSize ∧ s.ocap ≤ s.params.outSize ∧
      decLen s.ilen ≤ s.ocap) := by
  by_cases hbuf : s.ilen > s.params.inSize ∨ s.ocap > s.params.outSize
  · exact .inl ⟨_, by decide, decodeChecks_of_beyond hbuf⟩
  obtain ⟨hin, hout⟩ : s.ilen ≤ s.params.inSize ∧ s.ocap ≤ s.params.outSize := by omega
  by_cases hlen : s.ilen % 5 = 1
  · exact .inl ⟨_, by decide, decodeChecks_of_bad_length hin hout hlen⟩
  rcases Nat.lt_or_ge s.ocap (decLen s.ilen) with hcap | hcap
  · exact .inl ⟨_, by decide, decodeChecks_of_too_short hin hout hlen hcap⟩
  have hscan := decodeChecks_of_lengths hin hout hlen hcap
  cases hds : digits? (bufferOperand s) with
  | none => exact .inl ⟨.invalidChar, by decide, by rw [hscan, hds, Option.elim_none]⟩
  | some ds => exact .inr ⟨⟨ds, by rw [hscan, hds, Option.elim_some]⟩, hin, hout, hcap⟩

/-! ### The results -/

/-- What ENCODE leaves once its checks have passed. -/
def encodeResult (s : State) : State :=
  succeed (encLen s.ilen) (encodeWalk (s.ilen % 4) (s.ilen / 4) 0 0 s)

/-- What DECODE leaves once its checks have found the digits `ds` of its input. -/
def decodeResult (ds : List Digit) (s : State) : State :=
  succeed (decLen s.ilen) (decodeWalk ds (s.ilen % 5) (s.ilen / 5) 0 0 s)

@[simp] theorem encodeResult_count (s : State) : (encodeResult s).count = encLen s.ilen := rfl

theorem exec_encode_of_error {s : State} {e : Err} (h : encodeChecks s = some e) :
    exec .encode s = .next (raise e s) := by
  simp only [exec, execEncode, h]

theorem exec_encode_of_pass {s : State} (h : encodeChecks s = none) :
    exec .encode s = .next (encodeResult s) := by
  simp only [exec, execEncode, h, encodeResult]

theorem exec_decode_of_error {s : State} {e : Err} (h : decodeChecks s = .error e) :
    exec .decode s = .next (raise e s) := by
  simp only [exec, execDecode, h]

theorem exec_decode_of_pass {s : State} {ds : List Digit} (h : decodeChecks s = .ok ds) :
    exec .decode s = .next (decodeResult ds s) := by
  simp only [exec, execDecode, h, decodeResult]

theorem encodeResult_completed {s : State} (h : encodeChecks s = none) :
    Completed .ok (encLen s.ilen) s (encodeResult s) := by
  obtain ⟨t, ht, hdone, -⟩ := exec_framed .encode s
  obtain rfl := Host.Outcome.next.inj ((exec_encode_of_pass h).symm.trans ht)
  exact hdone

theorem decodeResult_completed {s : State} {ds : List Digit} (h : decodeChecks s = .ok ds) :
    Completed .ok (decLen s.ilen) s (decodeResult ds s) := by
  obtain ⟨t, ht, hdone, -⟩ := exec_framed .decode s
  obtain rfl := Host.Outcome.next.inj ((exec_decode_of_pass h).symm.trans ht)
  exact hdone

/-- Byte `j` of group `g` of ENCODE's output is character `j` of the group's encoding, for a full group and
for the remainder. -/
theorem readOut_encodeResult (s : State) {g j : Nat} (hj : j < 5) (hx : 5 * g + j < encLen s.ilen) :
    some (readOut (encodeResult s) (5 * g + j)) = (encGroup (groupAt 4 s g))[j]? := by
  rw [encLen_eq_groups] at hx
  rw [encodeResult, readOut_succeed]
  by_cases hg : g < s.ilen / 4
  · have h := encodeWalk_group (s.ilen % 4) (s.ilen / 4) 0 0 s hg hj
    rwa [Nat.zero_add, Nat.zero_add, ← groupAt_full hg] at h
  · obtain ⟨hr, rfl, hlast⟩ : s.ilen % 4 ≠ 0 ∧ g = s.ilen / 4 ∧ j < s.ilen % 4 + 1 := by
      split at hx <;> omega
    have h := encodeWalk_rest (s.ilen % 4) (s.ilen / 4) 0 0 s hr hlast
    rwa [Nat.zero_add, Nat.zero_add, ← groupAt_rest (by decide)] at h

theorem isValid_readOut_encodeResult (s : State) {x : Nat} (hx : x < encLen s.ilen) :
    isValid (readOut (encodeResult s) x) = true := by
  have h := readOut_encodeResult s (Nat.mod_lt x (by decide : 5 > 0)) (g := x / 5) (by omega)
  rw [Nat.div_add_mod] at h
  exact encDigits_valid _ _ _ (List.mem_of_getElem? h.symm)

/-- Each group of DECODE's validated input has digits, a slice of the input's. -/
theorem digits?_groupAt {s : State} {ds : List Digit} (hc : decodeChecks s = .ok ds) {g : Nat}
    (hg : 5 * g ≤ s.ilen) :
    digits? (groupAt 5 s g) = some ((ds.drop (5 * g)).take (min 5 (s.ilen - 5 * g))) := by
  have hds := (digits?_eq_some _ _).mp (digits?_of_decodeChecks hc)
  rw [digits?_eq_some, List.map_take, List.map_drop, ← hds]
  exact (take_drop_memReadIn s (by omega)).symm

/-- Byte `j` of group `g` of DECODE's output is byte `j` of the group's decoding, for a full group and for
the remainder. -/
theorem readOut_decodeResult {s : State} {ds : List Digit} (hc : decodeChecks s = .ok ds) {g : Nat}
    (hg : 5 * g ≤ s.ilen) :
    ∃ es, digits? (groupAt 5 s g) = some es ∧ ∀ j, j < 4 → 4 * g + j < decLen s.ilen →
      some (readOut (decodeResult ds s) (4 * g + j)) = (decGroup es)[j]? := by
  refine ⟨_, digits?_groupAt hc hg, fun j hj hx => ?_⟩
  have hlen : ds.length = s.ilen := by
    rw [digits?_length (digits?_of_decodeChecks hc), bufferOperand, memReadIn_length]
  rw [decLen_eq_groups] at hx
  rw [decodeResult, readOut_succeed]
  by_cases hfull : g < s.ilen / 5
  · have h := decodeWalk_group ds (s.ilen % 5) (s.ilen / 5) 0 0 s hfull hj (by omega)
    rw [Nat.zero_add, Nat.zero_add] at h
    rwa [min_eq_left (by omega)]
  · obtain ⟨rfl, hlast⟩ : g = s.ilen / 5 ∧ j < s.ilen % 5 - 1 := by omega
    have h := decodeWalk_rest ds (s.ilen % 5) (s.ilen / 5) 0 0 s (by omega) hlast (by omega)
    rw [Nat.zero_add, Nat.zero_add] at h
    rwa [← Nat.mod_eq_sub, min_eq_right (by omega)]

/-! ### Two runs -/

/-- The group an encoded index lies in starts within the input. -/
theorem four_mul_lt_of_lt_encLen {g j l : Nat} (h : 5 * g + j < encLen l) : 4 * g < l := by
  rw [encLen_eq_ceil] at h
  omega

/-- A part of the input that starts at a group and ends at a group or at the input's end is encoded as it is
within the whole (43_buffer_ops.md R78). -/
theorem readOut_encodeResult_part {s u : State} {a : Nat}
    (hin : ∀ x, x < u.ilen → readIn u x = readIn s (4 * a + x))
    (hend : u.ilen % 4 = 0 ∧ 4 * a + u.ilen ≤ s.ilen ∨ 4 * a + u.ilen = s.ilen) {x : Nat}
    (hx : x < encLen u.ilen) : readOut (encodeResult s) (5 * a + x) = readOut (encodeResult u) x := by
  obtain ⟨g, j, hj, rfl⟩ : ∃ g j, j < 5 ∧ x = 5 * g + j :=
    ⟨x / 5, x % 5, Nat.mod_lt x (by decide), (Nat.div_add_mod x 5).symm⟩
  have hg := four_mul_lt_of_lt_encLen hx
  have hgroup : groupAt 4 s (a + g) = groupAt 4 u g := by
    rw [groupAt, groupAt, show min 4 (s.ilen - 4 * (a + g)) = min 4 (u.ilen - 4 * g) by omega]
    refine memReadIn_eq_of_readIn_eq fun i hi => ?_
    rw [hin _ (by omega), Nat.mul_add, Nat.add_assoc]
  have hwhole : 5 * (a + g) + j < encLen s.ilen := by
    have := encLen_mono (show 4 * a + u.ilen ≤ s.ilen by omega)
    rw [encLen_four_mul_add] at this
    omega
  rw [← Nat.add_assoc, ← Nat.mul_add]
  apply Option.some.inj
  rw [readOut_encodeResult s hj hwhole, readOut_encodeResult u hj hx, hgroup]

/-- Where IN of `u` holds what ENCODE wrote in `s`, its groups are the encoded groups. -/
theorem groupAt_of_encodeResult {s u : State} (hlen : u.ilen = encLen s.ilen)
    (hin : ∀ x, x < encLen s.ilen → readIn u x = readOut (encodeResult s) x) {g : Nat}
    (hg : 4 * g < s.ilen) : groupAt 5 u g = encGroup (groupAt 4 s g) := by
  have hsize : (groupAt 5 u g).length = (encGroup (groupAt 4 s g)).length := by
    rw [groupAt_length, encGroup_length, groupAt_length, hlen, encLen_eq_ceil]
    omega
  refine List.ext_getElem hsize fun j hj hj' => ?_
  apply Option.some.inj
  rw [groupAt_length, hlen] at hj
  have hx : 5 * g + j < encLen s.ilen := by omega
  rw [← List.getElem?_eq_getElem hj', ← readOut_encodeResult s (by omega) hx, ← hin _ hx]
  simp only [groupAt, memReadIn_getElem]

/-- DECODE of what ENCODE wrote gives the original bytes back, group by group (43_buffer_ops.md R76). -/
theorem readOut_decodeResult_of_encodeResult {s u : State} {ds : List Digit}
    (hlen : u.ilen = encLen s.ilen)
    (hin : ∀ x, x < encLen s.ilen → readIn u x = readOut (encodeResult s) x)
    (hc : decodeChecks u = .ok ds) {x : Nat} (hx : x < s.ilen) :
    readOut (decodeResult ds u) x = readIn s x := by
  obtain ⟨g, j, hj, rfl⟩ : ∃ g j, j < 4 ∧ x = 4 * g + j :=
    ⟨x / 4, x % 4, Nat.mod_lt x (by decide), (Nat.div_add_mod x 4).symm⟩
  have hstart : 5 * g ≤ u.ilen := by rw [hlen, encLen_eq_ceil]; omega
  obtain ⟨es, hes, hbytes⟩ := readOut_decodeResult hc hstart
  obtain ⟨es', hes', hback⟩ := decGroup_encGroup (bytes := groupAt 4 s g) (by simp)
  rw [groupAt_of_encodeResult hlen hin (by omega)] at hes
  obtain rfl : es = es' := Option.some.inj (hes.symm.trans hes')
  apply Option.some.inj
  rw [hbytes j hj (by rwa [hlen, decLen_encLen]), hback, groupAt,
    memReadIn_getElem? _ _ _ _ (by omega)]

/-! ### The width of the length registers -/

theorem inSize_lt_two_pow_lenW (p : Config.Params) : p.inSize < 2 ^ p.lenW :=
  (Nat.le_max_left _ _).trans_lt p.lenW_fits

/-- Lengths within the buffers fit the registers, and their products with up to 8 fit three bits more
(43_buffer_ops.md R80). -/
theorem lengths_fit_of_within {s : State} (hin : s.ilen ≤ s.params.inSize)
    (hout : s.ocap ≤ s.params.outSize) :
    s.ocap < 2 ^ s.params.lenW ∧ s.ilen * 8 < 2 ^ (s.params.lenW + 3) := by
  have hilen := hin.trans_lt (inSize_lt_two_pow_lenW s.params)
  refine ⟨hout.trans_lt (outSize_lt_two_pow_lenW s.params), ?_⟩
  rw [pow_add]
  omega

/-! ### The obligations -/

/-- Settles O24: a full group of four bytes adds five characters, and `r` bytes more need `r + 1`. -/
theorem encodedLength : Obligations.EncodedLength := by
  refine ⟨fun _ => rfl, fun q r hr => ?_, encLen_eq_ceil⟩
  rw [encLen_four_mul_add]
  interval_cases r <;> rfl

/-- Settles O25: a full group of five characters adds four bytes. -/
theorem decodedLength : Obligations.DecodedLength := by
  refine ⟨fun _ => rfl, fun q r hr => ?_⟩
  rw [decLen_five_mul_add]
  interval_cases r <;> rfl

/-- Settles O26: each length undoes the other's rounding, except in the class `m % 5 = 1`. -/
theorem lengthsInvert : Obligations.LengthsInvert :=
  ⟨fun l => ⟨decLen_encLen l, encLen_mod_five_ne_one l⟩, fun _ => encLen_decLen⟩

/-- Settles O27: each error is what `encodeChecks` raises there, and past it ENCODE leaves `encodeResult`. -/
theorem encodeChecksInOrder : Obligations.EncodeChecksInOrder := fun s =>
  ⟨fun h => ⟨_, exec_encode_of_error (encodeChecks_of_beyond h), raise_completed _ s⟩,
    fun hin hout hcap =>
      ⟨_, exec_encode_of_error (encodeChecks_of_too_short hin hout hcap), raise_completed _ s⟩,
    fun hin hout hcap =>
      have hc := encodeChecks_of_fits hin hout hcap
      ⟨_, exec_encode_of_pass hc, encodeResult_completed hc⟩⟩

/-- Settles O28: full groups and the remainder are groups of `readOut_encodeResult`, and `encGroup` spells
valid characters only. -/
theorem encodeWritesTheGroups : Obligations.EncodeWritesTheGroups := by
  intro s hin hout hcap
  have hc := encodeChecks_of_fits hin hout hcap
  refine ⟨_, exec_encode_of_pass hc, encodeResult_completed hc, fun g j hg hj => ?full,
    fun hr j hj => ?rest, fun x hx => ?valid⟩
  case full =>
    rw [← groupAt_full hg]
    exact readOut_encodeResult s hj (by rw [encLen_eq_groups]; omega)
  case rest =>
    rw [← groupAt_rest (by decide)]
    exact readOut_encodeResult s (by omega) (by rw [encLen_eq_groups, if_pos hr]; omega)
  case valid =>
    have hvalid := isValid_readOut_encodeResult s hx
    refine ⟨hvalid, fun h => ?_⟩
    rw [h] at hvalid
    exact absurd hvalid (by decide)

/-- Settles O29: each error is what `decodeChecks` raises there, and past it DECODE leaves `decodeResult`. -/
theorem decodeChecksInOrder : Obligations.DecodeChecksInOrder := by
  refine fun s => ⟨fun h => ?illegal, fun hin hout hlen => ?invalidLength,
    fun hin hout hlen hcap => ?tooShort, fun hin hout hlen hcap hinvalid => ?invalidChar,
    fun hin hout hlen hcap hvalid => ?ok⟩
  case illegal =>
    exact ⟨_, exec_decode_of_error (decodeChecks_of_beyond h), raise_completed _ s⟩
  case invalidLength =>
    exact ⟨_, exec_decode_of_error (decodeChecks_of_bad_length hin hout hlen), raise_completed _ s⟩
  case tooShort =>
    exact ⟨_, exec_decode_of_error (decodeChecks_of_too_short hin hout hlen hcap), raise_completed _ s⟩
  case invalidChar =>
    have hc := decodeChecks_of_invalid hin hout hlen hcap hinvalid
    exact ⟨_, exec_decode_of_error hc, raise_completed _ s⟩
  case ok =>
    obtain ⟨ds, hc⟩ := exists_decodeChecks_eq_ok hin hout hlen hcap hvalid
    exact ⟨_, exec_decode_of_pass hc, decodeResult_completed hc⟩

/-- Settles O30: full groups and the remainder are both groups of `readOut_decodeResult`. -/
theorem decodeWritesTheGroups : Obligations.DecodeWritesTheGroups := by
  intro s hin hout hlen hcap hvalid
  obtain ⟨ds, hc⟩ := exists_decodeChecks_eq_ok hin hout hlen hcap hvalid
  refine ⟨_, exec_decode_of_pass hc, decodeResult_completed hc, fun g hg => ?full, fun hr => ?rest⟩
  case full =>
    obtain ⟨es, hes, hbytes⟩ := readOut_decodeResult hc (g := g) (by omega)
    rw [groupAt_full hg] at hes
    exact ⟨es, hes, fun j hj => hbytes j hj (by rw [decLen_eq_groups]; omega)⟩
  case rest =>
    obtain ⟨es, hes, hbytes⟩ := readOut_decodeResult hc (Nat.mul_div_le s.ilen 5)
    rw [groupAt_rest (by decide)] at hes
    exact ⟨es, hes, fun j hj => hbytes j (by omega) (by rw [decLen_eq_groups]; omega)⟩

/-- Settles O31: ENCODE's characters are valid and never 1 mod 5 in number, so DECODE's checks pass, and each
group decodes to what it encodes. -/
theorem bufferRoundTrip : Obligations.BufferRoundTrip := by
  intro s hin _ hback hcap hout
  have hc := encodeChecks_of_fits hin hout hcap
  refine ⟨_, exec_encode_of_pass hc, rfl, rfl, fun u hparams hchars hilen hlo hhi => ?_⟩
  rw [encodeResult_count] at hchars hilen
  have hvalid : ∀ x, x < u.ilen → isValid (readIn u x) = true := fun x hx => by
    rw [hilen] at hx
    rw [hchars x hx]
    exact isValid_readOut_encodeResult s hx
  have hdecLen : decLen u.ilen = s.ilen := by rw [hilen, decLen_encLen]
  obtain ⟨ds, hcd⟩ := exists_decodeChecks_eq_ok (by rwa [hilen, hparams]) hhi
    (by rw [hilen]; exact encLen_mod_five_ne_one _) (by rwa [hdecLen]) hvalid
  exact ⟨_, exec_decode_of_pass hcd, rfl, hdecLen, fun x hx =>
    readOut_decodeResult_of_encodeResult hilen hchars hcd hx⟩

/-- Settles O32: no length is needed and there is no character that could be invalid. -/
theorem emptyInputSucceeds : Obligations.EmptyInputSucceeds := by
  intro s hempty hout
  have hin : s.ilen ≤ s.params.inSize := by omega
  have hencLen : encLen s.ilen = 0 := by rw [hempty]; rfl
  have hdecLen : decLen s.ilen = 0 := by rw [hempty]; rfl
  have hc := encodeChecks_of_fits hin hout (by omega)
  obtain ⟨ds, hcd⟩ := exists_decodeChecks_eq_ok hin hout (by omega) (by omega) (by omega)
  exact ⟨⟨_, exec_encode_of_pass hc, hencLen ▸ encodeResult_completed hc⟩,
    ⟨_, exec_decode_of_pass hcd, hdecLen ▸ decodeResult_completed hcd⟩⟩

/-- Settles O33: the two inputs are the parts of the whole before and after a group's start. -/
theorem encodeMayBeCutAtGroups : Obligations.EncodeMayBeCutAtGroups := by
  intro s s₁ s₂ k hin hout hcap hk hp₁ ho₁ hi₁ hin₁ hp₂ ho₂ hi₂ hin₂
  have hlen₁ : encLen s₁.ilen = 5 * k := by rw [hi₁]; exact encLen_four_mul_add k 0
  have hlen : encLen s.ilen = 5 * k + encLen s₂.ilen := by
    rw [← encLen_four_mul_add, hi₂, Nat.add_sub_cancel' hk]
  have hc := encodeChecks_of_fits hin hout hcap
  have hc₁ : encodeChecks s₁ = none :=
    encodeChecks_of_fits (by rw [hp₁]; omega) (by rwa [hp₁, ho₁]) (by omega)
  have hc₂ : encodeChecks s₂ = none :=
    encodeChecks_of_fits (by rw [hp₂]; omega) (by rwa [hp₂, ho₂]) (by omega)
  refine ⟨_, _, _, exec_encode_of_pass hc, exec_encode_of_pass hc₁, exec_encode_of_pass hc₂,
    rfl, rfl, rfl, ?count, fun x hx => ?first, fun x hx => ?second⟩
  case count => rw [encodeResult_count, encodeResult_count, encodeResult_count, hlen, hlen₁]
  case first =>
    have h := readOut_encodeResult_part (s := s) (u := s₁) (a := 0)
      (fun y hy => by rw [hin₁ y (by omega), Nat.mul_zero, Nat.zero_add]) (.inl (by omega)) hx
    rwa [Nat.mul_zero, Nat.zero_add] at h
  case second =>
    rw [encodeResult_count, hlen₁]
    exact readOut_encodeResult_part hin₂ (.inr (by omega)) hx

/-- Settles O34: success means that the checks passed, and they bound every length by a buffer's size. -/
theorem countNeverTruncates : Obligations.CountNeverTruncates := by
  refine fun s t => ⟨fun h hok => ?encode, fun h hok => ?decode⟩
  case encode =>
    obtain ⟨e, he, hc⟩ | ⟨hc, hin, hout, hcap⟩ := encodeChecks_cases s
    · obtain rfl := Host.Outcome.next.inj ((exec_encode_of_error hc).symm.trans h)
      exact absurd hok he
    · obtain rfl := Host.Outcome.next.inj ((exec_encode_of_pass hc).symm.trans h)
      obtain ⟨hocap, hilen⟩ := lengths_fit_of_within hin hout
      exact ⟨rfl, hcap, hocap, by omega⟩
  case decode =>
    obtain ⟨e, he, hc⟩ | ⟨⟨ds, hc⟩, hin, hout, hcap⟩ := decodeChecks_cases s
    · obtain rfl := Host.Outcome.next.inj ((exec_decode_of_error hc).symm.trans h)
      exact absurd hok he
    · obtain rfl := Host.Outcome.next.inj ((exec_decode_of_pass hc).symm.trans h)
      obtain ⟨hocap, hilen⟩ := lengths_fit_of_within hin hout
      exact ⟨rfl, hcap, hocap, by omega⟩

end Sys2Proof.Machine
end

section
/-! Errors and completion (60_exceptions.md). An error is always `raise`, which writes nothing; the table of
R82 is read off the branch each command ends in, and one state for each outcome attains all of it. -/

namespace Sys2Proof.Machine

/-! ### The table of R82: no other outcome -/

theorem mayReport_ok (i : Instr) : mayReport i .ok = true := by
  cases i <;> rfl

theorem mayReport_decode (e : Err) : mayReport .decode e = true := by
  cases e <;> rfl

theorem encodeChecks_error {s : State} {e : Err} (h : encodeChecks s = some e) :
    e = .illegal ∨ e = .outputTooShort := by
  unfold encodeChecks at h
  split at h
  · exact .inl (Option.some.inj h).symm
  · split at h
    · exact .inr (Option.some.inj h).symm
    · cases h

/-- A command that may report `InvalidChar` may report whatever a group decoder ends with. -/
theorem decodeGroup_mayReport {i : Instr} (hi : mayReport i .invalidChar = true) (m : Nat) (s : State) :
    mayReport i (decodeGroup m s).err = true := by
  cases hds : digits? (memReadIn s 0 m) with
  | none => rwa [decodeGroup_of_no_digits hds, raise_err]
  | some ds => rw [decodeGroup_of_digits hds, deliver, succeed_err, mayReport_ok]

/-- Every command ends with an outcome the table gives it. -/
theorem exec_mayReport (i : Instr) (s : State) :
    ∃ t, exec i s = .next t ∧ mayReport i t.err = true := by
  cases i with
  | tochar =>
    cases hc : charOf? (readIn s 0).toNat with
    | none => exact ⟨_, exec_tochar_of_no_char hc, rfl⟩
    | some c => exact ⟨_, exec_tochar_of_char hc, rfl⟩
  | todigit =>
    cases hd : toDigit? (readIn s 0) with
    | none => exact ⟨_, exec_todigit_of_no_digit hd, rfl⟩
    | some d => exact ⟨_, exec_todigit_of_digit hd, rfl⟩
  | enc1 | enc2 | enc3 | enc4 => exact ⟨_, rfl, rfl⟩
  | dec2 | dec3 | dec4 | dec5 => exact ⟨_, rfl, decodeGroup_mayReport rfl _ s⟩
  | encode =>
    cases hc : encodeChecks s with
    | none => exact ⟨_, exec_encode_of_pass hc, rfl⟩
    | some e =>
      refine ⟨_, exec_encode_of_error hc, ?_⟩
      obtain rfl | rfl := encodeChecks_error hc <;> rfl
  | decode =>
    obtain ⟨t, ht, -⟩ := exec_completion .decode s
    exact ⟨t, ht, mayReport_decode t.err⟩

/-! ### The table of R82: each outcome is attained -/

/-- The reference instance with the byte `b` in IN[0] to IN[4], and ILEN and OCAP given. -/
def filledWith (b : Byte) (ilen ocap : Nat) : State :=
  { State.reset with inBuf := (List.range 5).map (·, b), ilen := ilen, ocap := ocap }

/-- For each outcome a state in which every command the table gives it to ends with it: 0x28 is a valid
character and a digit, 0x5C is neither, and IN has 256 bytes. -/
def reporting : Err → State
  | .ok             => filledWith 0x28 0 0
  | .outputTooShort => filledWith 0x28 2 0
  | .invalidLength  => filledWith 0x28 1 0
  | .invalidChar    => filledWith 0x5C 2 1
  | .illegal        => filledWith 0x5C 257 0

/-- In `reporting e` a command that may report `e` does. -/
theorem exec_reporting {i : Instr} {e : Err} (h : mayReport i e = true) :
    ∃ t, exec i (reporting e) = .next t ∧ t.err = e := by
  cases e with
  | ok => cases i <;> exact ⟨_, rfl, by decide⟩
  | outputTooShort =>
    cases i with
    | encode | decode => exact ⟨_, rfl, by decide⟩
    | _ => cases h
  | invalidLength =>
    cases i with
    | decode => exact ⟨_, rfl, by decide⟩
    | _ => cases h
  | invalidChar =>
    cases i with
    | todigit | dec2 | dec3 | dec4 | dec5 | decode => exact ⟨_, rfl, by decide⟩
    | _ => cases h
  | illegal =>
    cases i with
    | tochar | encode | decode => exact ⟨_, rfl, by decide⟩
    | _ => cases h

/-! ### Completion -/

/-- The core's turn while busy keeps the frame, whatever word is latched. -/
theorem coreTurn_framed {s : State} (hb : s.busy = true) : ∃ t, coreTurn s = .next t ∧ Framed s t := by
  cases hd : decodeWord s.latch with
  | ok i => rw [coreTurn_of_command hb hd]; exact exec_framed i s
  | error r => exact ⟨_, coreTurn_of_reserved hb hd, raise_framed .illegal s⟩

/-- The five outcomes (60_exceptions.md R82). -/
theorem err_eq_one_of_five (e : Err) :
    e = .ok ∨ e = .outputTooShort ∨ e = .invalidLength ∨ e = .invalidChar ∨ e = .illegal := by
  cases e <;> decide

/-! ### The obligations -/

/-- Settles O36: a command that fails has raised its error, and a success leaves `OK`. -/
theorem errorsArePrecise : Obligations.ErrorsArePrecise := by
  intro i s t h herr
  obtain ⟨u, hu, hcompletion⟩ := exec_completion i s
  obtain rfl : u = t := Host.Outcome.next.inj (hu.symm.trans h)
  cases hcompletion with
  | failed e => exact raise_completed e s
  | succeeded n out fits keeps => exact absurd rfl herr

/-- Settles O37: `exec_mayReport` allows nothing beside the table, and `reporting` attains what it gives. -/
theorem errorTable : Obligations.ErrorTable := by
  refine ⟨fun i s t h => ?_, fun i e h => ⟨reporting e, exec_reporting h⟩⟩
  obtain ⟨u, hu, hmay⟩ := exec_mayReport i s
  obtain rfl : u = t := Host.Outcome.next.inj (hu.symm.trans h)
  exact hmay

/-- Settles O40: the error leaves ILEN in place, so with the larger OCAP the checks pass. -/
theorem encodeRetryAfterTooShort : Obligations.EncodeRetryAfterTooShort := by
  intro s cap hin hshort hfits hcap
  have hfail : encodeChecks s = some .outputTooShort :=
    encodeChecks_of_too_short hin (by omega) hshort
  have hpass : encodeChecks { raise .outputTooShort s with ocap := cap } = none :=
    encodeChecks_of_fits hin hcap hfits
  exact ⟨_, _, exec_encode_of_error hfail, rfl, exec_encode_of_pass hpass, encodeResult_completed hpass⟩

/-- Settles O48: a latched command has its own frame, and a reserved word raises `Illegal`. -/
theorem everyCommandCompletes : Obligations.EveryCommandCompletes := by
  intro s hb
  obtain ⟨t, ht, hdone, -⟩ := coreTurn_framed hb
  exact ⟨t, ht, hdone.idle, hdone, err_eq_one_of_five t.err⟩

end Sys2Proof.Machine
end

section
/-! Reset and hazards (70_reset_and_hazards.md): the two events of R97 taken one at a time, the busy window
of R95, and R98 over a whole schedule. An action in the busy window that is no reset changes the host's side
alone, so the completion after it finds the operands it would have found at once. -/

namespace Sys2Proof.Machine

/-! ### Steps and runs -/

theorem run_zero (s : State) : Host.Core.run Sys2Proof.core 0 s = .next s := rfl

/-- A run that begins with a step to `t` goes on from `t`. -/
theorem run_succ_of_step {s t : State} (h : step s = .next t) (k : Nat) :
    Host.Core.run Sys2Proof.core (k + 1) s = Host.Core.run Sys2Proof.core k t := by
  have hstep : Sys2Proof.core.step s = .next t := h
  simp only [Host.Core.run, hstep]

theorem run_one_of_step {s t : State} (h : step s = .next t) :
    Host.Core.run Sys2Proof.core 1 s = .next t :=
  (run_succ_of_step h 0).trans (run_zero t)

/-! ### The core's turn -/

theorem framed_of_coreTurn {s t : State} (hb : s.busy = true) (h : coreTurn s = .next t) : Framed s t := by
  obtain ⟨u, hu, hframe⟩ := coreTurn_framed hb
  obtain rfl : u = t := Host.Outcome.next.inj (hu.symm.trans h)
  exact hframe

/-- Idle or busy, the core's turn ends idle and takes no event (R97, 60_exceptions.md R91). -/
theorem coreTurn_ends_idle (s : State) :
    ∃ t, coreTurn s = .next t ∧ t.busy = false ∧ t.schedule = s.schedule := by
  cases hb : s.busy with
  | false => exact ⟨s, coreTurn_of_idle hb, hb, rfl⟩
  | true =>
    obtain ⟨t, ht, hdone, -⟩ := coreTurn_framed hb
    exact ⟨t, ht, hdone.idle, hdone.host.schedule⟩

theorem decodeWord_of_decode {w : Byte} {i : Instr} {rest : List Byte} (h : decode [w] = .ok (i, rest)) :
    decodeWord w = .ok i :=
  decodeWord_eq_ok.mpr (List.cons.inj (eq_encode_cons_of_decode h)).1.symm

theorem coreTurn_of_encode {s : State} {i : Instr} (hb : s.busy = true) (hl : s.latch = encode i) :
    coreTurn s = exec i s :=
  coreTurn_of_command hb (decodeWord_eq_ok.mpr hl.symm)

theorem withFetchWord_toNat (s : State) (w : Byte) :
    s.withFetchWord 8 w.toNat = { issue w s with schedule := .core :: s.schedule } := by
  rw [State.withFetchWord, Nat.mod_eq_of_lt w.isLt, BitVec.ofNat_toNat, BitVec.setWidth_eq]

/-! ### States that differ on the host's side alone -/

/-- Two states show the same block and have the same word latched; what the host has still to do, has read
and has drawn may differ. -/
structure SameLatched (s t : State) : Prop extends SameBlock s t where
  latch : t.latch = s.latch

theorem sameLatched_hostSide (s : State) (draws : Nat) (events : List Event) (returned : List Returned) :
    SameLatched s { s with draws := draws, schedule := events, returned := returned } :=
  ⟨⟨rfl, fun _ => rfl, fun _ => rfl, rfl, rfl, rfl, rfl, rfl⟩, rfl⟩

theorem SameLatched.refl (s : State) : SameLatched s s :=
  sameLatched_hostSide s s.draws s.schedule s.returned

theorem sameLatched_setSchedule (s : State) (events : List Event) :
    SameLatched s { s with schedule := events } :=
  sameLatched_hostSide s s.draws events s.returned

theorem SameLatched.trans {r s t : State} (h : SameLatched r s) (h' : SameLatched s t) : SameLatched r t where
  params := h'.params.trans h.params
  input x := (h'.input x).trans (h.input x)
  output x := (h'.output x).trans (h.output x)
  ilen := h'.ilen.trans h.ilen
  ocap := h'.ocap.trans h.ocap
  count := h'.count.trans h.count
  err := h'.err.trans h.err
  busy := h'.busy.trans h.busy
  latch := h'.latch.trans h.latch

theorem SameBlock.sameOperands {s t : State} (h : SameBlock s t) (i : Instr) : SameOperands i s t :=
  ⟨h.params.symm, fun _ => ⟨h.ilen.symm, h.ocap.symm⟩, fun x _ => (h.input x).symm⟩

/-- Frames from the same block with the same result leave the same block: the result fixes OUT below COUNT
and the frames fix everything else. -/
theorem SameBlock.of_framed {s t s' t' : State} (h : SameBlock s t) (hs : Framed s s') (ht : Framed t t')
    (hresult : SameResult s' t') : SameBlock s' t' := by
  obtain ⟨hs, -⟩ := hs
  obtain ⟨ht, -⟩ := ht
  refine ⟨?params, fun x => ?input, fun x => ?output, ?ilen, ?ocap, hresult.count.symm, hresult.err.symm,
    ht.idle.trans hs.idle.symm⟩
  case params => rw [ht.operands.params, h.params, hs.operands.params]
  case input => rw [ht.operands.input, h.input, hs.operands.input]
  case ilen => rw [ht.operands.ilen, h.ilen, hs.operands.ilen]
  case ocap => rw [ht.operands.ocap, h.ocap, hs.operands.ocap]
  case output =>
    rcases Nat.lt_or_ge x s'.count with hx | hx
    · exact (hresult.output x hx).symm
    · rw [ht.output x (hresult.count ▸ hx), h.output, hs.output x hx]

/-- A command in progress ends with the same result in states that differ on the host's side alone. -/
theorem SameLatched.coreTurn_sameOutcome {s t : State} (h : SameLatched s t) (hb : s.busy = true) :
    SameOutcome (coreTurn s) (coreTurn t) := by
  have hbt : t.busy = true := h.busy.trans hb
  cases hd : decodeWord s.latch with
  | ok i =>
    rw [coreTurn_of_command hb hd, coreTurn_of_command hbt (h.latch ▸ hd)]
    exact exec_sameOutcome (h.sameOperands i)
  | error r =>
    rw [coreTurn_of_reserved hb hd, coreTurn_of_reserved hbt (h.latch ▸ hd)]
    exact (raise_sameResult .illegal s t).sameOutcome

theorem SameLatched.coreTurn_sameBlock {s t : State} (h : SameLatched s t) (hb : s.busy = true) :
    ∃ s' t', coreTurn s = .next s' ∧ coreTurn t = .next t' ∧ SameBlock s' t' := by
  obtain ⟨s', t', hs', ht', hresult⟩ := h.coreTurn_sameOutcome hb
  exact ⟨s', t', hs', ht',
    h.of_framed (framed_of_coreTurn hb hs') (framed_of_coreTurn (h.busy.trans hb) ht') hresult⟩

/-! ### The busy window -/

/-- R95: under BUSY a write is ignored, a read is answered, and only a reset reaches the block. -/
theorem actBusy_sameLatched {a : HostAction} (ha : isReset a = false) (s : State) :
    SameLatched s (actBusy a s) := by
  cases a with
  | writeReg _ _ | writeIn _ _ | writeOut _ _ => exact SameLatched.refl s
  | readReg r =>
    simp only [actBusy]
    split
    · exact sameLatched_hostSide s ..
    · exact SameLatched.refl s
  | readIn _ | readOut _ => exact sameLatched_hostSide s ..
  | reset => cases ha

/-- A step in the busy window takes one host action and changes the host's side alone. -/
theorem step_in_busyWindow {s : State} {a : HostAction} {events : List Event} (hb : s.busy = true)
    (hs : s.schedule = .host a :: events) (hadm : a.admitted s.params = true) (hreset : isReset a = false) :
    ∃ t, step s = .next t ∧ SameLatched s t ∧ t.schedule = events :=
  ⟨actBusy a { s with schedule := events },
    (step_of_host hs).trans (hostAct_of_busy (s := { s with schedule := events }) hb hadm),
    (sameLatched_setSchedule s events).trans (actBusy_sameLatched hreset _),
    (actBusy_keeps_schedule_params a _).1⟩

/-- The run through the busy window, from any state that differs from `r` on the host's side alone, ends as
the core would have completed `r` at once. -/
theorem run_busyWindow {r : State} {rest : List Event} (hb : r.busy = true) {acts : List HostAction}
    (hacts : ∀ a ∈ acts, a.admitted r.params = true ∧ isReset a = false) {s : State} (h : SameLatched r s)
    (hs : s.schedule = acts.map Event.host ++ .core :: rest) :
    ∃ t u, coreTurn r = .next t ∧ Host.Core.run Sys2Proof.core (acts.length + 1) s = .next u ∧
      SameBlock t u ∧ u.schedule = rest := by
  induction acts generalizing s with
  | nil =>
    obtain ⟨t, u, ht, hu, hblock⟩ := (h.trans (sameLatched_setSchedule s rest)).coreTurn_sameBlock hb
    obtain ⟨hdone, -⟩ := framed_of_coreTurn (s := { s with schedule := rest }) (h.busy.trans hb) hu
    exact ⟨t, u, ht, run_one_of_step ((step_of_core hs).trans hu), hblock, hdone.host.schedule⟩
  | cons a acts ih =>
    obtain ⟨⟨hadm, hreset⟩, hacts⟩ := List.forall_mem_cons.mp hacts
    obtain ⟨s', hstep, hsame, hs'⟩ :=
      step_in_busyWindow (h.busy.trans hb) hs (h.params ▸ hadm) hreset
    obtain ⟨t, u, ht, hu, hend⟩ := ih hacts (h.trans hsame) hs'
    exact ⟨t, u, ht, (run_succ_of_step hstep _).trans hu, hend⟩

/-! ### A whole schedule -/

/-- A step from an admitted schedule takes its first event and leaves the rest admitted. -/
theorem ScheduleAdmitted.exists_step {s : State} (h : ScheduleAdmitted s) :
    ∃ t, step s = .next t ∧ t.schedule = s.schedule.tail ∧ ScheduleAdmitted t := by
  have hnext : ∀ a rest, s.schedule = .host a :: rest → a.admitted s.params = true :=
    fun a rest hs => h (.host a) (hs ▸ List.mem_cons_self)
  obtain ⟨t, ht, hschedule, hparams⟩ := (refusedExactlyWhenNotAdmitted s).2 hnext
  refine ⟨t, ht, hschedule, fun e he => ?_⟩
  rw [hparams]
  exact h e (List.mem_of_mem_tail (hschedule ▸ he))

/-! ### The obligations -/

/-- Settles O56: the busy window that starts at the state itself. -/
theorem busyWindowDisturbsNothing : Obligations.BusyWindowDisturbsNothing := by
  intro s acts rest hb hs hacts
  obtain ⟨t, u, ht, hu, hblock, hschedule⟩ := run_busyWindow hb hacts (SameLatched.refl s) hs
  obtain ⟨hdone, -⟩ := framed_of_coreTurn hb ht
  exact ⟨t, u, ht, hu, hblock, hblock.busy.trans hdone.idle, hschedule⟩

/-- Settles O57, by induction on the schedule: each step takes one event, and the turn the core has when
none is left ends idle. -/
theorem everyScheduleEndsIdle : Obligations.EveryScheduleEndsIdle := by
  intro s hadm
  induction hs : s.schedule generalizing s with
  | nil =>
    obtain ⟨t, ht, hidle, hschedule⟩ := coreTurn_ends_idle s
    exact ⟨t, run_one_of_step ((step_of_nil hs).trans ht), hidle, hschedule.trans hs⟩
  | cons e events ih =>
    obtain ⟨s', hstep, hs', hadm'⟩ := hadm.exists_step
    obtain ⟨t, ht, hend⟩ := ih s' hadm' (hs'.trans (by rw [hs, List.tail_cons]))
    exact ⟨t, (run_succ_of_step hstep _).trans ht, hend⟩

/-- Settles O55: the write of CMD issues, and the core's turn ends idle whatever the word. -/
theorem issueThenCompletion : Obligations.IssueThenCompletion := by
  intro s w rest hb hw hs
  have hissue : step s = .next { issue (BitVec.ofNat 8 w) s with schedule := .core :: rest } :=
    (step_of_host hs).trans (hostAct_writeCmd (s := { s with schedule := .core :: rest }) hb hw)
  obtain ⟨t, ht, hidle, hschedule⟩ :=
    coreTurn_ends_idle { issue (BitVec.ofNat 8 w) s with schedule := rest }
  have hrun : Host.Core.run Sys2Proof.core 2 s = .next t :=
    (run_succ_of_step hissue 1).trans (run_one_of_step ((step_of_core rfl).trans ht))
  exact ⟨t, hrun, ht, hidle, hschedule⟩

/-- Settles O44: the core's turn of a state whose latched word decodes. -/
theorem stepRunsTheLatchedCommand : Obligations.StepRunsTheLatchedCommand := by
  refine ⟨fun s i hb hd => ?decoded, fun s i => ?fetched⟩
  case decoded =>
    have hword : decodeWord s.latch = .ok i := decodeWord_of_decode hd
    exact ⟨fun hs => (step_of_nil hs).trans (coreTurn_of_command hb hword),
      fun rest hs => (step_of_core hs).trans
        (coreTurn_of_command (s := { s with schedule := rest }) hb hword)⟩
  case fetched =>
    rw [withFetchWord_toNat]
    exact (step_of_core rfl).trans (coreTurn_of_encode (s := issue (encode i) s) rfl rfl)

/-- Settles O45: the three equations of `step`, and the core's idle turn. -/
theorem stepTakesTheNextEvent : Obligations.StepTakesTheNextEvent :=
  ⟨fun _ => step_of_nil, fun _ _ => step_of_core, fun _ _ _ => step_of_host, fun _ => coreTurn_of_idle⟩

end Sys2Proof.Machine
end
